-- ==== Sys2Proof/Word.lean ====
section
/-! DEFINITION. The widths of the machine's words (spec/00_scope.md rules R8, R18 to R20; spec/30_encoding.md rule R302). -/

namespace Sys2Proof

/-- A byte of memory, a general register or a timer: 8 bits, unsigned (R8, R18). -/
abbrev Byte := BitVec 8

/-- A 16-bit quantity: the instruction word, `pc`, `I`, a return address, the key mask (R8, R20). -/
abbrev Word := BitVec 16

/-- A register index, the 4-bit field `x` or `y` of an instruction (R302). -/
abbrev Reg := BitVec 4

/-- A hexadecimal key, 0 to 15 (R131). -/
abbrev Key := BitVec 4

/-- The 12-bit address field `nnn` (R302). -/
abbrev Addr := BitVec 12

/-- `zext16` of R19: zero extension to 16 bits.  No operand of the core is sign-extended. -/
abbrev zext16 {w : Nat} (v : BitVec w) : Word := v.setWidth 16

end Sys2Proof
end

