-- ==== Sys2Proof/Syntax.lean ====
section
/-! DEFINITION. The 35 instructions of spec/opcode_table.json, one constructor per row, in the table's order
(spec/30_encoding.md rule R310).  The marker `Invalid(op)` is no row of the table: it is the decoder's rejection, in
`Sys2Proof/Decode.lean`. -/

namespace Sys2Proof

/-- The instruction set (R2, R310).  Operand fields are those of R302, in the order of the variant's parameter list. -/
inductive Instr where
  | clearDisplay
  | ret
  | sysCall (nnn : Addr)
  | jump (nnn : Addr)
  | call (nnn : Addr)
  | skipIfEq (x : Reg) (kk : Byte)
  | skipIfNe (x : Reg) (kk : Byte)
  | skipIfRegEq (x y : Reg)
  | loadImmediate (x : Reg) (kk : Byte)
  | addImmediate (x : Reg) (kk : Byte)
  | copy (x y : Reg)
  | or (x y : Reg)
  | and (x y : Reg)
  | xor (x y : Reg)
  | addReg (x y : Reg)
  | subtractReg (x y : Reg)
  | shiftRight (x y : Reg)
  | subtractReverse (x y : Reg)
  | shiftLeft (x y : Reg)
  | skipIfRegNe (x y : Reg)
  | loadIndex (nnn : Addr)
  | jumpPlusV0 (nnn : Addr)
  | random (x : Reg) (kk : Byte)
  | drawSprite (x y : Reg) (n : BitVec 4)
  | skipIfKeyDown (x : Reg)
  | skipIfKeyUp (x : Reg)
  | loadFromDelay (x : Reg)
  | waitForKey (x : Reg)
  | storeToDelay (x : Reg)
  | storeToSound (x : Reg)
  | addToIndex (x : Reg)
  | loadFontAddress (x : Reg)
  | storeBcd (x : Reg)
  | storeRegisters (x : Reg)
  | loadRegisters (x : Reg)
  deriving DecidableEq, Repr

end Sys2Proof
end

