-- ==== Sys2Proof/WellFormed.lean ====
section
/-! DEFINITION. Which terms of `Instr` stand for a word of their own (spec/30_encoding.md rules R303, R305, R308).  Operand
widths are in the types; what is left to check is the overlap of the `0` group. -/

namespace Sys2Proof

/-- A well-formed instruction.  `SysCall(nnn)` excludes 0x0E0 and 0x0EE, whose words are ClearDisplay and Return (R308, R600);
every other variant admits every value of every field (R305). -/
def Instr.wellFormed : Instr → Bool
  | .sysCall nnn => nnn != 0x0E0#12 && nnn != 0x0EE#12
  | .clearDisplay | .ret | .jump _ | .call _ | .skipIfEq _ _ | .skipIfNe _ _ | .skipIfRegEq _ _ | .loadImmediate _ _
  | .addImmediate _ _ | .copy _ _ | .or _ _ | .and _ _ | .xor _ _ | .addReg _ _ | .subtractReg _ _ | .shiftRight _ _
  | .subtractReverse _ _ | .shiftLeft _ _ | .skipIfRegNe _ _ | .loadIndex _ | .jumpPlusV0 _ | .random _ _
  | .drawSprite _ _ _ | .skipIfKeyDown _ | .skipIfKeyUp _ | .loadFromDelay _ | .waitForKey _ | .storeToDelay _
  | .storeToSound _ | .addToIndex _ | .loadFontAddress _ | .storeBcd _ | .storeRegisters _ | .loadRegisters _ => true

end Sys2Proof
end

