-- ==== Sys2Proof/Decode.lean ====
section
/-! DEFINITION. The decoder and the encoder, both written from the tables of spec/30_encoding.md (rules R300 to R313). -/

namespace Sys2Proof

/-- What the decoder yields for a word: one of the 35 instructions, or the marker `Invalid(op)` (R306). -/
inductive Decoded where
  | instr (i : Instr)
  | invalid (op : Word)
  deriving DecidableEq, Repr

/-- The field of `op` that is `width` bits wide and starts at bit `lo` (R19, R301, R302). -/
def opField (lo width : Nat) (op : Word) : BitVec width := op.extractLsb' lo width

/-- The `0` group: the two exact words are matched before the pattern `0nnn` (R307, R308). -/
def decodeGroup0 (op : Word) : Decoded :=
  if op = 0x00E0#16 then .instr .clearDisplay
  else if op = 0x00EE#16 then .instr .ret
  else .instr (.sysCall (opField 0 12 op))

/-- The `8` group, selected by the low nibble (R307). -/
def decodeGroup8 (op : Word) (x y : Reg) : Decoded :=
  match (opField 0 4 op).toNat with
  | 0x0 => .instr (.copy x y)
  | 0x1 => .instr (.or x y)
  | 0x2 => .instr (.and x y)
  | 0x3 => .instr (.xor x y)
  | 0x4 => .instr (.addReg x y)
  | 0x5 => .instr (.subtractReg x y)
  | 0x6 => .instr (.shiftRight x y)
  | 0x7 => .instr (.subtractReverse x y)
  | 0xE => .instr (.shiftLeft x y)
  | _ => .invalid op

/-- The `E` group, selected by the low byte (R307). -/
def decodeGroupE (op : Word) (x : Reg) : Decoded :=
  match (opField 0 8 op).toNat with
  | 0x9E => .instr (.skipIfKeyDown x)
  | 0xA1 => .instr (.skipIfKeyUp x)
  | _ => .invalid op

/-- The `F` group, selected by the low byte (R307). -/
def decodeGroupF (op : Word) (x : Reg) : Decoded :=
  match (opField 0 8 op).toNat with
  | 0x07 => .instr (.loadFromDelay x)
  | 0x0A => .instr (.waitForKey x)
  | 0x15 => .instr (.storeToDelay x)
  | 0x18 => .instr (.storeToSound x)
  | 0x1E => .instr (.addToIndex x)
  | 0x29 => .instr (.loadFontAddress x)
  | 0x33 => .instr (.storeBcd x)
  | 0x55 => .instr (.storeRegisters x)
  | 0x65 => .instr (.loadRegisters x)
  | _ => .invalid op

/-- The decode function of R307 on the instruction word, total on all 65536 words. -/
def decodeWord (op : Word) : Decoded :=
  let x : Reg := opField 8 4 op
  let y : Reg := opField 4 4 op
  let n : BitVec 4 := opField 0 4 op
  let nnn : Addr := opField 0 12 op
  let kk : Byte := opField 0 8 op
  match (opField 12 4 op).toNat with
  | 0x0 => decodeGroup0 op
  | 0x1 => .instr (.jump nnn)
  | 0x2 => .instr (.call nnn)
  | 0x3 => .instr (.skipIfEq x kk)
  | 0x4 => .instr (.skipIfNe x kk)
  | 0x5 => if n = 0x0#4 then .instr (.skipIfRegEq x y) else .invalid op
  | 0x6 => .instr (.loadImmediate x kk)
  | 0x7 => .instr (.addImmediate x kk)
  | 0x8 => decodeGroup8 op x y
  | 0x9 => if n = 0x0#4 then .instr (.skipIfRegNe x y) else .invalid op
  | 0xA => .instr (.loadIndex nnn)
  | 0xB => .instr (.jumpPlusV0 nnn)
  | 0xC => .instr (.random x kk)
  | 0xD => .instr (.drawSprite x y n)
  | 0xE => decodeGroupE op x
  | _ => decodeGroupF op x

/-- `decode(hi, lo)` of R306: the word is `hi ++ lo`, the first byte the high byte (R300, R212). -/
def decode (hi lo : Byte) : Decoded := decodeWord (hi ++ lo)

/-! ### The encoder, from the formats of R303 and the match column of R310 -/

/-- Format NNN: `pppp nnnn nnnn nnnn`. -/
def encodeNNN (p : BitVec 4) (nnn : Addr) : Word := p ++ nnn

/-- Format XKK: `pppp xxxx kkkk kkkk`. -/
def encodeXKK (p : BitVec 4) (x : Reg) (kk : Byte) : Word := p ++ (x ++ kk)

/-- Formats XY and XYN: `pppp xxxx yyyy nnnn`; in XY the low nibble is fixed. -/
def encodeXYN (p : BitVec 4) (x y : Reg) (n : BitVec 4) : Word := p ++ (x ++ (y ++ n))

/-- The word of an instruction (R303, R310).  Format X is XKK with a fixed low byte. -/
def encode : Instr → Word
  | .clearDisplay => 0x00E0#16
  | .ret => 0x00EE#16
  | .sysCall nnn => encodeNNN 0x0#4 nnn
  | .jump nnn => encodeNNN 0x1#4 nnn
  | .call nnn => encodeNNN 0x2#4 nnn
  | .skipIfEq x kk => encodeXKK 0x3#4 x kk
  | .skipIfNe x kk => encodeXKK 0x4#4 x kk
  | .skipIfRegEq x y => encodeXYN 0x5#4 x y 0x0#4
  | .loadImmediate x kk => encodeXKK 0x6#4 x kk
  | .addImmediate x kk => encodeXKK 0x7#4 x kk
  | .copy x y => encodeXYN 0x8#4 x y 0x0#4
  | .or x y => encodeXYN 0x8#4 x y 0x1#4
  | .and x y => encodeXYN 0x8#4 x y 0x2#4
  | .xor x y => encodeXYN 0x8#4 x y 0x3#4
  | .addReg x y => encodeXYN 0x8#4 x y 0x4#4
  | .subtractReg x y => encodeXYN 0x8#4 x y 0x5#4
  | .shiftRight x y => encodeXYN 0x8#4 x y 0x6#4
  | .subtractReverse x y => encodeXYN 0x8#4 x y 0x7#4
  | .shiftLeft x y => encodeXYN 0x8#4 x y 0xE#4
  | .skipIfRegNe x y => encodeXYN 0x9#4 x y 0x0#4
  | .loadIndex nnn => encodeNNN 0xA#4 nnn
  | .jumpPlusV0 nnn => encodeNNN 0xB#4 nnn
  | .random x kk => encodeXKK 0xC#4 x kk
  | .drawSprite x y n => encodeXYN 0xD#4 x y n
  | .skipIfKeyDown x => encodeXKK 0xE#4 x 0x9E#8
  | .skipIfKeyUp x => encodeXKK 0xE#4 x 0xA1#8
  | .loadFromDelay x => encodeXKK 0xF#4 x 0x07#8
  | .waitForKey x => encodeXKK 0xF#4 x 0x0A#8
  | .storeToDelay x => encodeXKK 0xF#4 x 0x15#8
  | .storeToSound x => encodeXKK 0xF#4 x 0x18#8
  | .addToIndex x => encodeXKK 0xF#4 x 0x1E#8
  | .loadFontAddress x => encodeXKK 0xF#4 x 0x29#8
  | .storeBcd x => encodeXKK 0xF#4 x 0x33#8
  | .storeRegisters x => encodeXKK 0xF#4 x 0x55#8
  | .loadRegisters x => encodeXKK 0xF#4 x 0x65#8

/-- The first byte of a word as it stands in memory: the high byte, at the lower address (R212, R300). -/
def Word.hi (op : Word) : Byte := op.extractLsb' 8 8

/-- The second byte of a word as it stands in memory: the low byte (R212, R300). -/
def Word.lo (op : Word) : Byte := op.extractLsb' 0 8

/-- The instruction word whose bits are `w`, of which the opcode table gives `nbits`; every bit above them is 0. -/
def tableWord (nbits w : Nat) : Word := BitVec.ofNat 16 (w % 2 ^ nbits)

/-- The instruction the decoder reads from the table's word: its two bytes in memory order, given to `decode`. -/
def decodeTableWord (nbits w : Nat) : Option Instr :=
  match decode (tableWord nbits w).hi (tableWord nbits w).lo with
  | .instr i => some i
  | .invalid _ => none

/-! ### The opcode map (R310), its mask and match columns -/

/-- The mask column of R310: the fixed bits of an instruction's format. -/
def Instr.rowMask : Instr → Word
  | .clearDisplay | .ret => 0xFFFF#16
  | .sysCall _ | .jump _ | .call _ | .skipIfEq _ _ | .skipIfNe _ _ | .loadImmediate _ _ | .addImmediate _ _
  | .loadIndex _ | .jumpPlusV0 _ | .random _ _ | .drawSprite _ _ _ => 0xF000#16
  | .skipIfRegEq _ _ | .copy _ _ | .or _ _ | .and _ _ | .xor _ _ | .addReg _ _ | .subtractReg _ _
  | .shiftRight _ _ | .subtractReverse _ _ | .shiftLeft _ _ | .skipIfRegNe _ _ => 0xF00F#16
  | .skipIfKeyDown _ | .skipIfKeyUp _ | .loadFromDelay _ | .waitForKey _ | .storeToDelay _ | .storeToSound _
  | .addToIndex _ | .loadFontAddress _ | .storeBcd _ | .storeRegisters _ | .loadRegisters _ => 0xF0FF#16

/-- The match column of R310: the values of those fixed bits. -/
def Instr.rowMatch : Instr → Word
  | .clearDisplay => 0x00E0#16
  | .ret => 0x00EE#16
  | .sysCall _ => 0x0000#16
  | .jump _ => 0x1000#16
  | .call _ => 0x2000#16
  | .skipIfEq _ _ => 0x3000#16
  | .skipIfNe _ _ => 0x4000#16
  | .skipIfRegEq _ _ => 0x5000#16
  | .loadImmediate _ _ => 0x6000#16
  | .addImmediate _ _ => 0x7000#16
  | .copy _ _ => 0x8000#16
  | .or _ _ => 0x8001#16
  | .and _ _ => 0x8002#16
  | .xor _ _ => 0x8003#16
  | .addReg _ _ => 0x8004#16
  | .subtractReg _ _ => 0x8005#16
  | .shiftRight _ _ => 0x8006#16
  | .subtractReverse _ _ => 0x8007#16
  | .shiftLeft _ _ => 0x800E#16
  | .skipIfRegNe _ _ => 0x9000#16
  | .loadIndex _ => 0xA000#16
  | .jumpPlusV0 _ => 0xB000#16
  | .random _ _ => 0xC000#16
  | .drawSprite _ _ _ => 0xD000#16
  | .skipIfKeyDown _ => 0xE09E#16
  | .skipIfKeyUp _ => 0xE0A1#16
  | .loadFromDelay _ => 0xF007#16
  | .waitForKey _ => 0xF00A#16
  | .storeToDelay _ => 0xF015#16
  | .storeToSound _ => 0xF018#16
  | .addToIndex _ => 0xF01E#16
  | .loadFontAddress _ => 0xF029#16
  | .storeBcd _ => 0xF033#16
  | .storeRegisters _ => 0xF055#16
  | .loadRegisters _ => 0xF065#16

/-- The 35 rows of R310 in its order, each as mask and match. -/
def opcodeMap : List (Word × Word) :=
  [(0xFFFF#16, 0x00E0#16), (0xFFFF#16, 0x00EE#16), (0xF000#16, 0x0000#16), (0xF000#16, 0x1000#16), (0xF000#16, 0x2000#16)] ++
  [(0xF000#16, 0x3000#16), (0xF000#16, 0x4000#16), (0xF00F#16, 0x5000#16), (0xF000#16, 0x6000#16), (0xF000#16, 0x7000#16)] ++
  [(0xF00F#16, 0x8000#16), (0xF00F#16, 0x8001#16), (0xF00F#16, 0x8002#16), (0xF00F#16, 0x8003#16), (0xF00F#16, 0x8004#16)] ++
  [(0xF00F#16, 0x8005#16), (0xF00F#16, 0x8006#16), (0xF00F#16, 0x8007#16), (0xF00F#16, 0x800E#16), (0xF00F#16, 0x9000#16)] ++
  [(0xF000#16, 0xA000#16), (0xF000#16, 0xB000#16), (0xF000#16, 0xC000#16), (0xF000#16, 0xD000#16), (0xF0FF#16, 0xE09E#16)] ++
  [(0xF0FF#16, 0xE0A1#16), (0xF0FF#16, 0xF007#16), (0xF0FF#16, 0xF00A#16), (0xF0FF#16, 0xF015#16), (0xF0FF#16, 0xF018#16)] ++
  [(0xF0FF#16, 0xF01E#16), (0xF0FF#16, 0xF029#16), (0xF0FF#16, 0xF033#16), (0xF0FF#16, 0xF055#16), (0xF0FF#16, 0xF065#16)]

end Sys2Proof
end

