-- ==== Sys2Proof/Config.lean ====
section
/-! DEFINITION. The parameters the spec leaves open (spec/00_scope.md rules R12 to R17), each a type of its own, gathered in
`Params`; and the one free value of the model, the random byte (spec/60_exceptions.md rule R730).  The default VALUES of
the parameters stand in `Sys2Proof/Machine/Defaults.lean`. -/

namespace Sys2Proof

/-- `SHIFT_SOURCE` (R12): the register that 8xy6 and 8xyE read the value to be shifted from. -/
inductive ShiftSource where
  | vx
  | vy
  deriving DecidableEq, Repr

/-- `VF_ORDER` (R13): which of the two writes to `V[15]` is final when `x = 15`. -/
inductive VfOrder where
  | flagLast
  | resultLast
  deriving DecidableEq, Repr

/-- `OOB_POLICY` (R14): what a memory access at an address of 0x1000 or above does. -/
inductive OobPolicy where
  | fault
  | wrap
  deriving DecidableEq, Repr

/-- `INDEX_VF` (R15): whether Fx1E writes `V[15]`. -/
inductive IndexVf where
  | off
  | on
  deriving DecidableEq, Repr

/-- `KEY_POLICY` (R16): what Ex9E and ExA1 do when `V[x]` names no hexadecimal key. -/
inductive KeyPolicy where
  | fault
  | lowNibble
  | notPressed
  deriving DecidableEq, Repr

/-- `FONT` (R17): the 80 bytes that stand at 0x000 to 0x04F after power-on and after every load. -/
abbrev Font := Vector Byte 80

/-- The parameters a model takes as arguments (R12 to R17).  They are fixed for a machine: no event changes them. -/
structure Params where
  shiftSource  : ShiftSource
  vfOrder      : VfOrder
  oobPolicy    : OobPolicy
  indexVf      : IndexVf
  indexVfLimit : Word
  keyPolicy    : KeyPolicy
  font         : Font
  deriving DecidableEq, Repr

/-- The byte the random source offers to the `n`-th step when the schedule does not name it (R730: "every one of the 256
values is a possible input to every step").  A free value: nothing constrains it (log entry 9). -/
opaque Config.freeRandomByte : Nat → Byte

end Sys2Proof
end

