-- ==== Sys2Proof/Machine/Defaults.lean ====
section
/-! DEFINITION. The default values of the parameters (spec/00_scope.md rules R12 to R17), the default font (spec/10_state.md
rule R141) and what a memory address holds after power-on and before anything is written there (R140, R170). -/

namespace Sys2Proof.Machine

/-- The default `FONT` (R141): glyph `d` at `5 * d`, top row first, bit 7 the leftmost pixel. -/
def defaultFont : Font :=
  #v[0xF0, 0x90, 0x90, 0x90, 0xF0,
     0x20, 0x60, 0x20, 0x20, 0x70,
     0xF0, 0x10, 0xF0, 0x80, 0xF0,
     0xF0, 0x10, 0xF0, 0x10, 0xF0,
     0x90, 0x90, 0xF0, 0x10, 0x10,
     0xF0, 0x80, 0xF0, 0x10, 0xF0,
     0xF0, 0x80, 0xF0, 0x90, 0xF0,
     0xF0, 0x10, 0x20, 0x40, 0x40,
     0xF0, 0x90, 0xF0, 0x90, 0xF0,
     0xF0, 0x90, 0xF0, 0x10, 0xF0,
     0xF0, 0x90, 0xF0, 0x90, 0x90,
     0xE0, 0x90, 0xE0, 0x90, 0xE0,
     0xF0, 0x80, 0x80, 0x80, 0xF0,
     0xE0, 0x90, 0x90, 0x90, 0xE0,
     0xF0, 0x80, 0xF0, 0x80, 0xF0,
     0xF0, 0x80, 0xF0, 0x80, 0x80]

/-- The defaults of R12 to R17 (log entries 2 to 7). -/
def defaultParams : Params where
  shiftSource := .vx
  vfOrder := .flagLast
  oobPolicy := .fault
  indexVf := .off
  indexVfLimit := 0x0F00#16
  keyPolicy := .fault
  font := defaultFont

/-- What an address no write has changed reads as: the contents after power-on and after a load of an empty image, `FONT` at
0x000 to 0x04F and 0 everywhere else (R140, R170). -/
def resetByte (font : Font) (a : Nat) : Byte :=
  if h : a < 80 then font[a] else 0#8

end Sys2Proof.Machine
end

