-- ==== Sys2Proof/Machine/State.lean ====
section
/-! DEFINITION. The machine's state (spec/10_state.md), its errors and the load's (spec/60_exceptions.md rule R700), its events
(spec/10_state.md rule R150) and the state after `power_on` (R170). -/

namespace Sys2Proof.Machine

/-- The wait state (R130). -/
inductive WaitState where
  | running
  | awaitingKey (r : Reg)
  deriving DecidableEq, Repr

/-- The events of the block's interface (R150), each applied whole between two others (R151). -/
inductive Event where
  /-- One step of the engine, with the random byte offered to it (R400, R730). -/
  | step (r : Byte)
  /-- One timer tick (R735). -/
  | tick
  /-- A key-down signal (R720). -/
  | keyDown (k : Key)
  /-- A key-up signal (R721). -/
  | keyUp (k : Key)
  /-- A program load, the block's reset (R810); of more than 3584 bytes, without effect (R811). -/
  | load (image : List Byte)
  /-- Power-on (R800). -/
  | powerOn
  deriving DecidableEq, Repr

/-- The memory's written bytes, in the canonical form of `Memory.wf`. -/
abbrev Memory := List Host.Cell

/-- The framebuffer as 32 rows of a 64-bit word, column `c` at bit `c` (R136; log entry 17). -/
abbrev Framebuffer := Vector (BitVec 64) 32

/-- The errors that a step returns, codes 1 to 5 of R700.  The step commits nothing, so the state after it is the state before it
(R712), and the outcome carries none.  Each is fatal to the running program (R702) and a run that reports one has failed (R713), so
stopping the run here is safe. -/
inductive Fault where
  /-- Code 1, by a step whose word is in the invalid space (R602).  Safe. -/
  | badInstruction (op : Word)
  /-- Code 2, by Call with `sp = 16` (R424).  Safe. -/
  | stackOverflow
  /-- Code 3, by Return with `sp = 0` (R426).  Safe. -/
  | stackUnderflow
  /-- Code 4, by fetch, Dxyn, Fx33, Fx55 and Fx65 under `OOB_POLICY = Fault` (R210).  Safe. -/
  | addressOutOfRange (a : Word)
  /-- Code 5, by Ex9E and ExA1 under `KEY_POLICY = Fault` (R526).  Safe. -/
  | keyOutOfRange (v : Byte)
  deriving DecidableEq, Repr

/-- The error that a load returns, code 16 of R700.  It stops nothing: the state is left as it was and the machine goes on (R811). -/
inductive LoadError where
  /-- An image of more than 3584 bytes, with its length and that maximum. -/
  | programTooLarge (len max : Nat)
  deriving DecidableEq, Repr

/-- The refusals.  No meaning of this model refuses; the one constructor is raised by an arm of `exec` that has no meaning
yet, and no such arm is left.  Safe. -/
inductive Refusal where
  | notModelled (mnemonic : String)
  deriving DecidableEq, Repr

/-- The machine's state (R100 to R141, R170), with the parameters of R12 to R17 and the two fields of the model's own that
stand for the driver (log entries 1, 8 and 9). -/
structure State where
  /-- `V0` to `VF`, 16 registers of 8 bits (R100). -/
  v : Vector Byte 16
  /-- The index register `I` (R126). -/
  i : Word
  /-- The program counter (R110). -/
  pc : Word
  /-- The stack pointer, 0 to 16, the next free slot (R129). -/
  sp : Fin 17
  /-- The 16 return-address slots (R135). -/
  stack : Vector Word 16
  /-- The delay timer `DT` (R127). -/
  dt : Byte
  /-- The sound timer `ST` (R128). -/
  st : Byte
  /-- The wait state (R130). -/
  wait : WaitState
  /-- The key mask, bit `k` for key `k` (R131). -/
  keys : BitVec 16
  /-- The framebuffer `fb` (R136). -/
  fb : Framebuffer
  /-- The written bytes of `mem` (R140). -/
  mem : Memory
  /-- The parameters (R12 to R17).  No event changes them. -/
  params : Params
  /-- The model's own: the events the driver issues next, oldest first; when the list is empty the driver issues steps. -/
  schedule : List Event
  /-- The model's own: how many steps the engine has taken, the argument of the free random byte. -/
  stepCount : Nat
  deriving DecidableEq, Repr

/-- The state after `power_on` (R800, the "after power_on" column of R170), with the default parameters. -/
def State.reset : State where
  v := Vector.replicate 16 0#8
  i := 0
  pc := 0x0200#16
  sp := 0
  stack := Vector.replicate 16 0#16
  dt := 0
  st := 0
  wait := .running
  keys := 0
  fb := Vector.replicate 32 0#64
  mem := []
  params := defaultParams
  schedule := []
  stepCount := 0

end Sys2Proof.Machine
end

