-- ==== Sys2Proof/Machine/Ops.lean ====
section
/-! DEFINITION. The shared operations: memory and its address check, general registers, the return stack, the framebuffer,
how an outcome moves `pc`, and how an error ends a step. -/

namespace Sys2Proof.Machine

/-! ### Memory (spec/20_memory.md) -/

/-- The byte at address `a`. -/
def Memory.read (font : Font) : Memory → Nat → Byte
  | [], a => resetByte font a
  | (k, c) :: m, a => if a = k then c else Memory.read font m a

/-- The cells with the byte at `a` replaced, or added in its place. -/
def Memory.insert (a : Nat) (b : Byte) : Memory → Memory
  | [] => [(a, b)]
  | (k, c) :: m =>
    if a < k then (a, b) :: (k, c) :: m
    else if a = k then (a, b) :: m
    else (k, c) :: Memory.insert a b m

/-- The cells without the one at `a`. -/
def Memory.remove (a : Nat) : Memory → Memory
  | [] => []
  | (k, c) :: m => if a = k then m else (k, c) :: Memory.remove a m

/-- The memory with byte `b` at address `a`, in canonical form again. -/
def Memory.write (font : Font) (m : Memory) (a : Nat) (b : Byte) : Memory :=
  if b = resetByte font a then Memory.remove a m else Memory.insert a b m

/-- The cells from the address `lo` on are in canonical form: strictly rising, below 0x1000, and none equal to what an
unlisted address reads as. -/
def Memory.wfFrom (font : Font) (lo : Nat) : Memory → Bool
  | [] => true
  | (k, c) :: m => decide (lo ≤ k) && decide (k < 0x1000) && c != resetByte font k && Memory.wfFrom font (k + 1) m

/-- The canonical form of the memory: equal memories are equal data. -/
def Memory.wf (font : Font) (m : Memory) : Bool := Memory.wfFrom font 0 m

/-- The state's memory is in canonical form. -/
def State.memWf (s : State) : Bool := Memory.wf s.params.font s.mem

/-- `mem[a]`. -/
def State.readByte (s : State) (a : Nat) : Byte := Memory.read s.params.font s.mem a

/-- `mem[a] <- b`. -/
def State.writeByte (s : State) (a : Nat) (b : Byte) : State :=
  { s with mem := Memory.write s.params.font s.mem a b }

/-- `Addr(a)` of R210, for an address computed without truncation. -/
def resolveAddr (p : OobPolicy) (a : Nat) : Except Fault Nat :=
  if a < 0x1000 then .ok a
  else match p with
    | .fault => .error (.addressOutOfRange (BitVec.ofNat 16 a))
    | .wrap => .ok (a % 0x1000)

/-- The resolved addresses of `base`, `base + 1`, …, `n` of them, in access order.  The first that is out of range is the one
reported (R211, R710). -/
def resolveRange (p : OobPolicy) (base : Nat) : Nat → Except Fault (List Nat)
  | 0 => .ok []
  | n + 1 =>
    match resolveAddr p base with
    | .error f => .error f
    | .ok a =>
      match resolveRange p (base + 1) n with
      | .error f => .error f
      | .ok as => .ok (a :: as)

/-- `MemRead(a, 1)` of R210. -/
def State.memRead (s : State) (a : Nat) : Except Fault Byte :=
  match resolveAddr s.params.oobPolicy a with
  | .error f => .error f
  | .ok k => .ok (s.readByte k)

/-- `MemRead` at `n` consecutive addresses, all of them checked first (R211, R216). -/
def State.loadBytes (s : State) (base n : Nat) : Except Fault (List Byte) :=
  match resolveRange s.params.oobPolicy base n with
  | .error f => .error f
  | .ok as => .ok (as.map s.readByte)

/-- One byte written at each address, in order (R218). -/
def State.writeBytes (s : State) : List (Nat × Byte) → State
  | [] => s
  | (a, b) :: rest => (s.writeByte a b).writeBytes rest

/-- `MemWrite` of `bs` at consecutive addresses, all of them checked before any byte is written (R211, R216). -/
def State.storeBytes (s : State) (base : Nat) (bs : List Byte) : Except Fault State :=
  match resolveRange s.params.oobPolicy base bs.length with
  | .error f => .error f
  | .ok as => .ok (s.writeBytes (as.zip bs))

/-- `Fetch(pc)` of R212: the high byte at `pc`, the low byte at `pc + 1`, `pc` checked before `pc + 1`. -/
def State.fetch (s : State) : Except Fault (Byte × Byte) :=
  match s.memRead s.pc.toNat with
  | .error f => .error f
  | .ok hi =>
    match s.memRead (s.pc.toNat + 1) with
    | .error f => .error f
    | .ok lo => .ok (hi, lo)

/-! ### General registers (spec/10_state.md rules R100 to R102) -/

/-- The read `V[x]`. -/
def State.getV (s : State) (x : Reg) : Byte := s.v[x.toNat]'x.isLt

/-- The write `V[x] <- b`. -/
def State.setV (s : State) (x : Reg) (b : Byte) : State := { s with v := s.v.set x.toNat b x.isLt }

/-- The register `VF`, index 15, that doubles as the flag (R100, R120). -/
abbrev VF : Reg := 0xF#4

/-- `V[0]` to `V[x]`, in order (R568). -/
def State.getVs (s : State) (x : Reg) : List Byte := s.v.toList.take (x.toNat + 1)

/-- The register file with `bs` written from register `k` up. -/
def setRegs (v : Vector Byte 16) (k : Nat) : List Byte → Vector Byte 16
  | [] => v
  | b :: bs => setRegs (v.setIfInBounds k b) (k + 1) bs

/-- `V[0] <- bs[0]`, `V[1] <- bs[1]`, … (R570). -/
def State.setVs (s : State) (bs : List Byte) : State := { s with v := setRegs s.v 0 bs }

/-- `WriteRF` of R461: a result to `V[x]` and a flag to `V[15]`, in the order `VF_ORDER` names. -/
def State.writeRF (s : State) (x : Reg) (result flag : Byte) : State :=
  match s.params.vfOrder with
  | .flagLast => (s.setV x result).setV VF flag
  | .resultLast => (s.setV VF flag).setV x result

/-! ### The end of a step (spec/40_execution_cycle.md rule R406) -/

/-- The control-flow outcome of a step (R24, R407). -/
inductive Flow where
  | next
  | skip
  | jump (a : Word)
  | waiting
  deriving DecidableEq, Repr

/-- `Apply(outcome, pc)` of R406, in 16-bit arithmetic. -/
def Flow.apply : Flow → Word → Word
  | .next, pc => pc + 2#16
  | .skip, pc => pc + 4#16
  | .jump a, _ => a
  | .waiting, pc => pc

/-- The state with its `pc` moved by the outcome. -/
def State.finish (s : State) (f : Flow) : State := { s with pc := f.apply s.pc }

/-- `outcome Skip` when the test holds and `outcome Next` when it does not (R440). -/
def Flow.skipIf (test : Bool) : Flow := if test then .skip else .next

/-! ### Errors (spec/60_exceptions.md) -/

/-- `raise e` of R21 and R712, the one way a step ends in an error: nothing is committed, no register records a
cause, and there is no handler, vector or saved state.  There is no return from an error either (R714). -/
def raise (f : Fault) : Host.Outcome State Fault Refusal := .fault f

/-- The numeric code of a step's error (R700). -/
def Fault.code : Fault → Nat
  | .badInstruction _ => 1
  | .stackOverflow => 2
  | .stackUnderflow => 3
  | .addressOutOfRange _ => 4
  | .keyOutOfRange _ => 5

/-- The numeric code of a load's error (R700). -/
def LoadError.code : LoadError → Nat
  | .programTooLarge _ _ => 16

/-! ### The return stack (spec/10_state.md rules R129, R135) -/

/-- `stack[sp] <- a`, `sp <- sp + 1`, or `StackOverflow` when all 16 slots are in use (R424). -/
def State.push (s : State) (a : Word) : Except Fault State :=
  if h : s.sp.val < 16 then
    .ok { s with stack := s.stack.set s.sp.val a h, sp := ⟨s.sp.val + 1, by omega⟩ }
  else .error .stackOverflow

/-- The address in `stack[sp - 1]` and the state with `sp <- sp - 1`, or `StackUnderflow` when the stack is empty (R426).
The popped slot keeps its contents. -/
def State.pop (s : State) : Except Fault (Word × State) :=
  if h : s.sp.val = 0 then .error .stackUnderflow
  else
    .ok (s.stack[s.sp.val - 1]'(by omega), { s with sp := ⟨s.sp.val - 1, by omega⟩ })

/-! ### The framebuffer (spec/10_state.md rule R136) -/

/-- `fb[c][r]`. -/
def Framebuffer.pixel (fb : Framebuffer) (c : Fin 64) (r : Fin 32) : Bool := fb[r].getLsbD c.val

/-- `fb[c][r] <- fb[c][r] ^ 1`. -/
def Framebuffer.toggle (fb : Framebuffer) (c : Fin 64) (r : Fin 32) : Framebuffer :=
  fb.set r.val (fb[r] ^^^ (1#64 <<< c.val)) r.isLt

/-- All 2048 pixels 0 (R500). -/
def Framebuffer.clear : Framebuffer := Vector.replicate 32 0#64

end Sys2Proof.Machine
end

