-- ==== Sys2Proof/Machine/Flags.lean ====
section
/-! DEFINITION. The flag values written to `V[15]`, one definition per row of the table of spec/10_state.md rule R120.  Each is
computed from start-of-step values, as mathematical comparisons of unsigned numbers (R20, R22). -/

namespace Sys2Proof.Machine

/-- 1 when the test holds, else 0. -/
def flagOf (test : Bool) : Byte := if test then 1#8 else 0#8

/-- The carry of 8xy4: 1 if the unsigned sum exceeds 255 (R474). -/
def carryFlag (vx vy : Byte) : Byte := flagOf (decide (vx.toNat + vy.toNat > 255))

/-- The flag of 8xy5 and, with its operands exchanged, of 8xy7: 1 if there is no borrow (R476, R480). -/
def noBorrowFlag (a b : Byte) : Byte := flagOf (decide (a.toNat ≥ b.toNat))

/-- The flag of 8xy6: bit 0 of the value before the shift (R478). -/
def lsbFlag (src : Byte) : Byte := src &&& 1#8

/-- The flag of 8xyE: bit 7 of the value before the shift (R482). -/
def msbFlag (src : Byte) : Byte := (src >>> 7) &&& 1#8

/-- The flag of Dxyn: 1 if any pixel went from set to unset (R502). -/
def collisionFlag (collision : Bool) : Byte := flagOf collision

/-- The flag of Fx1E under `INDEX_VF = On`: 1 if the unbounded sum exceeds `INDEX_VF_LIMIT` (R562). -/
def indexFlag (limit : Word) (sum : Nat) : Byte := flagOf (decide (sum > limit.toNat))

end Sys2Proof.Machine
end

