-- ==== Sys2Proof/Machine/Operands.lean ====
section
/-! DEFINITION. Operand forms beyond a plain register or immediate: the shift source, the key a register names, the digits of a
byte, and the random byte of a step. -/

namespace Sys2Proof.Machine

/-- The value 8xy6 and 8xyE shift: `V[x]` or `V[y]`, as `SHIFT_SOURCE` says (R478, R482). -/
def State.shiftOperand (s : State) (x y : Reg) : Byte :=
  match s.params.shiftSource with
  | .vx => s.getV x
  | .vy => s.getV y

/-- `KeyIndex(v)` of R526; `none` is `NoKey`, a key that is never pressed. -/
def keyIndex (p : KeyPolicy) (v : Byte) : Except Fault (Option Key) :=
  if v.toNat < 16 then .ok (some (v.setWidth 4))
  else match p with
    | .fault => .error (.keyOutOfRange v)
    | .lowNibble => .ok (some (v.setWidth 4))
    | .notPressed => .ok none

/-- `Pressed(k)` of R526. -/
def State.pressed (s : State) : Option Key → Bool
  | some k => s.keys.getLsbD k.toNat
  | none => false

/-- The three decimal digits of `v`, hundreds first (R566). -/
def bcdDigits (v : Byte) : List Byte :=
  [BitVec.ofNat 8 (v.toNat / 100), BitVec.ofNat 8 (v.toNat / 10 % 10), BitVec.ofNat 8 (v.toNat % 10)]

/-- The random byte `r` of this step (R400, R730): the one the schedule offers, else a free value. -/
def State.randomByte (s : State) : Byte :=
  match s.schedule with
  | .step r :: _ => r
  | _ => Config.freeRandomByte s.stepCount

end Sys2Proof.Machine
end

