-- ==== Sys2Proof/Machine/Arithmetic.lean ====
section
/-! DEFINITION. Register loads, ALU operations and Random: 6xkk, 7xkk, 8xy0 to 8xyE, Cxkk (spec/43_arithmetic.md).  Arithmetic
on bytes is modulo 256 (R20, R460); every operand is read before any write (R463). -/

namespace Sys2Proof.Machine

/-- LoadImmediate(x, kk) (R462). -/
def execLoadImmediate (x : Reg) (kk : Byte) (s : State) : Host.Outcome State Fault Refusal :=
  .next ((s.setV x kk).finish .next)

/-- AddImmediate(x, kk): no flag (R464). -/
def execAddImmediate (x : Reg) (kk : Byte) (s : State) : Host.Outcome State Fault Refusal :=
  .next ((s.setV x (s.getV x + kk)).finish .next)

/-- Copy(x, y): `V[y]` into `V[x]` (R466). -/
def execCopy (x y : Reg) (s : State) : Host.Outcome State Fault Refusal :=
  .next ((s.setV x (s.getV y)).finish .next)

/-- Or(x, y): no flag (R468). -/
def execOr (x y : Reg) (s : State) : Host.Outcome State Fault Refusal :=
  .next ((s.setV x (s.getV x ||| s.getV y)).finish .next)

/-- And(x, y): no flag (R470). -/
def execAnd (x y : Reg) (s : State) : Host.Outcome State Fault Refusal :=
  .next ((s.setV x (s.getV x &&& s.getV y)).finish .next)

/-- Xor(x, y): no flag (R472). -/
def execXor (x y : Reg) (s : State) : Host.Outcome State Fault Refusal :=
  .next ((s.setV x (s.getV x ^^^ s.getV y)).finish .next)

/-- AddReg(x, y), with the carry in `V[15]` (R474). -/
def execAddReg (x y : Reg) (s : State) : Host.Outcome State Fault Refusal :=
  .next ((s.writeRF x (s.getV x + s.getV y) (carryFlag (s.getV x) (s.getV y))).finish .next)

/-- SubtractReg(x, y), with not-borrow in `V[15]` (R476). -/
def execSubtractReg (x y : Reg) (s : State) : Host.Outcome State Fault Refusal :=
  .next ((s.writeRF x (s.getV x - s.getV y) (noBorrowFlag (s.getV x) (s.getV y))).finish .next)

/-- ShiftRight(x, y), with the bit shifted out in `V[15]` (R478). -/
def execShiftRight (x y : Reg) (s : State) : Host.Outcome State Fault Refusal :=
  .next ((s.writeRF x (s.shiftOperand x y >>> 1) (lsbFlag (s.shiftOperand x y))).finish .next)

/-- SubtractReverse(x, y), with not-borrow in `V[15]` (R480). -/
def execSubtractReverse (x y : Reg) (s : State) : Host.Outcome State Fault Refusal :=
  .next ((s.writeRF x (s.getV y - s.getV x) (noBorrowFlag (s.getV y) (s.getV x))).finish .next)

/-- ShiftLeft(x, y), with the bit shifted out in `V[15]` (R482). -/
def execShiftLeft (x y : Reg) (s : State) : Host.Outcome State Fault Refusal :=
  .next ((s.writeRF x (s.shiftOperand x y <<< 1) (msbFlag (s.shiftOperand x y))).finish .next)

/-- Random(x, kk): the step's random byte, masked (R484). -/
def execRandom (x : Reg) (kk : Byte) (s : State) : Host.Outcome State Fault Refusal :=
  .next ((s.setV x (s.randomByte &&& kk)).finish .next)

end Sys2Proof.Machine
end

