-- ==== Sys2Proof/Machine/Display.lean ====
section
/-! DEFINITION. Display: 00E0 ClearDisplay, Dxyn DrawSprite (spec/44_display.md). -/

namespace Sys2Proof.Machine

/-- ClearDisplay (R500). -/
def execClearDisplay (s : State) : Host.Outcome State Fault Refusal :=
  .next ({ s with fb := Framebuffer.clear }.finish .next)

/-- The framebuffer a draw has reached, and whether a pixel has gone from set to unset so far. -/
structure Canvas where
  fb        : Framebuffer
  collision : Bool
  deriving DecidableEq, Repr

/-- The column that sprite column `col` lands on: `(vx + col) mod 64` (R502). -/
def spriteColumn (vx : Byte) (col : Nat) : Fin 64 := Fin.ofNat 64 (vx.toNat + col)

/-- The row that sprite row `row` lands on: `(vy + row) mod 32` (R502). -/
def spriteRow (vy : Byte) (row : Nat) : Fin 32 := Fin.ofNat 32 (vy.toNat + row)

/-- One sprite bit: a 1 toggles its pixel, and counts as a collision if the pixel was set (R502). -/
def drawBit (vx vy b : Byte) (row : Nat) (cv : Canvas) (col : Nat) : Canvas :=
  if b.getLsbD (7 - col) then
    { fb := cv.fb.toggle (spriteColumn vx col) (spriteRow vy row)
      collision := cv.collision || cv.fb.pixel (spriteColumn vx col) (spriteRow vy row) }
  else cv

/-- One sprite row: its columns 0 to 7, bit 7 of the byte the leftmost (R502). -/
def drawRow (vx vy b : Byte) (row : Nat) (cv : Canvas) : Canvas :=
  [0, 1, 2, 3, 4, 5, 6, 7].foldl (drawBit vx vy b row) cv

/-- The sprite's rows from row `row` on (R502). -/
def drawRows (vx vy : Byte) (row : Nat) : List Byte → Canvas → Canvas
  | [], cv => cv
  | b :: bs, cv => drawRows vx vy (row + 1) bs (drawRow vx vy b row cv)

/-- DrawSprite(x, y, n): the coordinates and the `n` bytes at `I` are read before anything is written, and `V[15]` ends as the
collision flag (R502, R405). -/
def execDrawSprite (x y : Reg) (n : BitVec 4) (s : State) : Host.Outcome State Fault Refusal :=
  match s.loadBytes s.i.toNat n.toNat with
  | .error f => raise f
  | .ok bs =>
    let cv := drawRows (s.getV x) (s.getV y) 0 bs { fb := s.fb, collision := false }
    .next (({ s with fb := cv.fb }.setV VF (collisionFlag cv.collision)).finish .next)

end Sys2Proof.Machine
end

