-- ==== Sys2Proof/Machine/FlowControl.lean ====
section
/-! DEFINITION. Flow control: 1nnn Jump, 2nnn Call, 00EE Return, Bnnn JumpPlusV0 (spec/41_flow_control.md). -/

namespace Sys2Proof.Machine

/-- Jump(nnn) (R422). -/
def execJump (nnn : Addr) (s : State) : Host.Outcome State Fault Refusal :=
  .next (s.finish (.jump (zext16 nnn)))

/-- Call(nnn): pushes `pc + 2` (R424). -/
def execCall (nnn : Addr) (s : State) : Host.Outcome State Fault Refusal :=
  match s.push (s.pc + 2#16) with
  | .error f => raise f
  | .ok t => .next (t.finish (.jump (zext16 nnn)))

/-- Return: jumps to the popped address, which already is the call site plus 2 (R426). -/
def execReturn (s : State) : Host.Outcome State Fault Refusal :=
  match s.pop with
  | .error f => raise f
  | .ok (target, t) => .next (t.finish (.jump target))

/-- The outcome of JumpPlusV0(nnn): a 16-bit sum, not reduced to 12 bits (R428). -/
def flowJumpPlusV0 (nnn : Addr) (s : State) : Flow := .jump (zext16 nnn + zext16 (s.getV 0))

/-- JumpPlusV0(nnn): nothing but the outcome (R428). -/
def execJumpPlusV0 (nnn : Addr) (s : State) : Host.Outcome State Fault Refusal :=
  .next (s.finish (flowJumpPlusV0 nnn s))

end Sys2Proof.Machine
end

