-- ==== Sys2Proof/Machine/Keyboard.lean ====
section
/-! DEFINITION. Keyboard: Ex9E SkipIfKeyDown, ExA1 SkipIfKeyUp, Fx0A WaitForKey (spec/45_keyboard.md). -/

namespace Sys2Proof.Machine

/-- The outcome of SkipIfKeyDown(x), or `KeyOutOfRange` (R520, R526). -/
def flowSkipIfKeyDown (x : Reg) (s : State) : Except Fault Flow :=
  match keyIndex s.params.keyPolicy (s.getV x) with
  | .error f => .error f
  | .ok k => .ok (.skipIf (s.pressed k))

/-- The outcome of SkipIfKeyUp(x), or `KeyOutOfRange` (R522, R526). -/
def flowSkipIfKeyUp (x : Reg) (s : State) : Except Fault Flow :=
  match keyIndex s.params.keyPolicy (s.getV x) with
  | .error f => .error f
  | .ok k => .ok (.skipIf (!s.pressed k))

/-- SkipIfKeyDown(x): nothing but the outcome (R520). -/
def execSkipIfKeyDown (x : Reg) (s : State) : Host.Outcome State Fault Refusal :=
  match flowSkipIfKeyDown x s with
  | .error f => raise f
  | .ok o => .next (s.finish o)

/-- SkipIfKeyUp(x): nothing but the outcome (R522). -/
def execSkipIfKeyUp (x : Reg) (s : State) : Host.Outcome State Fault Refusal :=
  match flowSkipIfKeyUp x s with
  | .error f => raise f
  | .ok o => .next (s.finish o)

/-- WaitForKey(x): enters the wait with outcome `Next`; the key-down that ends it writes `V[x]` (R524, R722). -/
def execWaitForKey (x : Reg) (s : State) : Host.Outcome State Fault Refusal :=
  .next ({ s with wait := .awaitingKey x }.finish .next)

end Sys2Proof.Machine
end

