-- ==== Sys2Proof/Machine/MemoryIndirect.lean ====
section
/-! DEFINITION. The index register and the memory-indirect operations: Annn, Fx1E, Fx29, Fx33, Fx55, Fx65
(spec/47_memory_indirect.md).  Every address is checked before any write (R211). -/

namespace Sys2Proof.Machine

/-- LoadIndex(nnn) (R560). -/
def execLoadIndex (nnn : Addr) (s : State) : Host.Outcome State Fault Refusal :=
  .next ({ s with i := zext16 nnn }.finish .next)

/-- AddToIndex(x): the sum is taken without bound, and `I` gets it modulo 0x10000; `V[15]` is written only under
`INDEX_VF = On` (R562). -/
def execAddToIndex (x : Reg) (s : State) : Host.Outcome State Fault Refusal :=
  let sum := s.i.toNat + (s.getV x).toNat
  let t := { s with i := BitVec.ofNat 16 sum }
  match s.params.indexVf with
  | .off => .next (t.finish .next)
  | .on => .next ((t.setV VF (indexFlag s.params.indexVfLimit sum)).finish .next)

/-- LoadFontAddress(x): 5 bytes per glyph, `V[x]` not reduced to a digit (R564). -/
def execLoadFontAddress (x : Reg) (s : State) : Host.Outcome State Fault Refusal :=
  .next ({ s with i := zext16 (s.getV x) * 5#16 }.finish .next)

/-- StoreBcd(x): hundreds, tens and ones at `I`, `I + 1` and `I + 2` (R566). -/
def execStoreBcd (x : Reg) (s : State) : Host.Outcome State Fault Refusal :=
  match s.storeBytes s.i.toNat (bcdDigits (s.getV x)) with
  | .error f => raise f
  | .ok t => .next (t.finish .next)

/-- StoreRegisters(x): `V[0]` to `V[x]` at `I` and up; `I` unchanged (R568). -/
def execStoreRegisters (x : Reg) (s : State) : Host.Outcome State Fault Refusal :=
  match s.storeBytes s.i.toNat (s.getVs x) with
  | .error f => raise f
  | .ok t => .next (t.finish .next)

/-- LoadRegisters(x): `V[0]` to `V[x]` from `I` and up; `I` unchanged (R570). -/
def execLoadRegisters (x : Reg) (s : State) : Host.Outcome State Fault Refusal :=
  match s.loadBytes s.i.toNat (x.toNat + 1) with
  | .error f => raise f
  | .ok bs => .next ((s.setVs bs).finish .next)

end Sys2Proof.Machine
end

