-- ==== Sys2Proof/Machine/Skip.lean ====
section
/-! DEFINITION. Conditional skips on registers and immediates: 3xkk, 4xkk, 5xy0, 9xy0 (spec/42_conditional_skip.md). -/

namespace Sys2Proof.Machine

/-- The outcome of SkipIfEq(x, kk) (R442). -/
def flowSkipIfEq (x : Reg) (kk : Byte) (s : State) : Flow := .skipIf (s.getV x == kk)

/-- SkipIfEq(x, kk): nothing but the outcome (R442, R440). -/
def execSkipIfEq (x : Reg) (kk : Byte) (s : State) : Host.Outcome State Fault Refusal :=
  .next (s.finish (flowSkipIfEq x kk s))

/-- The outcome of SkipIfNe(x, kk) (R444). -/
def flowSkipIfNe (x : Reg) (kk : Byte) (s : State) : Flow := .skipIf (s.getV x != kk)

/-- SkipIfNe(x, kk): nothing but the outcome (R444, R440). -/
def execSkipIfNe (x : Reg) (kk : Byte) (s : State) : Host.Outcome State Fault Refusal :=
  .next (s.finish (flowSkipIfNe x kk s))

/-- The outcome of SkipIfRegEq(x, y) (R446). -/
def flowSkipIfRegEq (x y : Reg) (s : State) : Flow := .skipIf (s.getV x == s.getV y)

/-- SkipIfRegEq(x, y): nothing but the outcome (R446, R440). -/
def execSkipIfRegEq (x y : Reg) (s : State) : Host.Outcome State Fault Refusal :=
  .next (s.finish (flowSkipIfRegEq x y s))

/-- The outcome of SkipIfRegNe(x, y) (R448). -/
def flowSkipIfRegNe (x y : Reg) (s : State) : Flow := .skipIf (s.getV x != s.getV y)

/-- SkipIfRegNe(x, y): nothing but the outcome (R448, R440). -/
def execSkipIfRegNe (x y : Reg) (s : State) : Host.Outcome State Fault Refusal :=
  .next (s.finish (flowSkipIfRegNe x y s))

end Sys2Proof.Machine
end

