-- ==== Sys2Proof/Machine/System.lean ====
section
/-! DEFINITION. System words: 0nnn SysCall, and what executing a word of the invalid space does (spec/48_system.md). -/

namespace Sys2Proof.Machine

/-- SysCall(nnn): a documented no-op; `nnn` is ignored (R600, R313). -/
def execSysCall (_nnn : Addr) (s : State) : Host.Outcome State Fault Refusal :=
  .next (s.finish .next)

/-- Invalid(op): `BadInstruction(op)`, always (R602). -/
def execInvalid (op : Word) : Host.Outcome State Fault Refusal :=
  raise (.badInstruction op)

end Sys2Proof.Machine
end

