-- ==== Sys2Proof/Machine/Timers.lean ====
section
/-! DEFINITION. Timer access: Fx07 LoadFromDelay, Fx15 StoreToDelay, Fx18 StoreToSound (spec/46_timers.md).  None of them
decrements a timer (R546). -/

namespace Sys2Proof.Machine

/-- LoadFromDelay(x) (R540). -/
def execLoadFromDelay (x : Reg) (s : State) : Host.Outcome State Fault Refusal :=
  .next ((s.setV x s.dt).finish .next)

/-- StoreToDelay(x) (R542). -/
def execStoreToDelay (x : Reg) (s : State) : Host.Outcome State Fault Refusal :=
  .next ({ s with dt := s.getV x }.finish .next)

/-- StoreToSound(x) (R544). -/
def execStoreToSound (x : Reg) (s : State) : Host.Outcome State Fault Refusal :=
  .next ({ s with st := s.getV x }.finish .next)

end Sys2Proof.Machine
end

