-- ==== Sys2Proof/Machine/Dispatch.lean ====
section
/-! DEFINITION. `Execute(ins, r)` of spec/40_execution_cycle.md rule R404: one arm per instruction. -/

namespace Sys2Proof.Machine

-- the rule that spec/30_encoding.md rule R310 names for the variant
def exec (i : Instr) (s : State) : Host.Outcome State Fault Refusal :=
  match i with
  | .clearDisplay => Sys2Proof.Machine.execClearDisplay s
  | .ret => Sys2Proof.Machine.execReturn s
  | .sysCall nnn => Sys2Proof.Machine.execSysCall nnn s
  | .jump nnn => Sys2Proof.Machine.execJump nnn s
  | .call nnn => Sys2Proof.Machine.execCall nnn s
  | .skipIfEq x kk => Sys2Proof.Machine.execSkipIfEq x kk s
  | .skipIfNe x kk => Sys2Proof.Machine.execSkipIfNe x kk s
  | .skipIfRegEq x y => Sys2Proof.Machine.execSkipIfRegEq x y s
  | .loadImmediate x kk => Sys2Proof.Machine.execLoadImmediate x kk s
  | .addImmediate x kk => Sys2Proof.Machine.execAddImmediate x kk s
  | .copy x y => Sys2Proof.Machine.execCopy x y s
  | .or x y => Sys2Proof.Machine.execOr x y s
  | .and x y => Sys2Proof.Machine.execAnd x y s
  | .xor x y => Sys2Proof.Machine.execXor x y s
  | .addReg x y => Sys2Proof.Machine.execAddReg x y s
  | .subtractReg x y => Sys2Proof.Machine.execSubtractReg x y s
  | .shiftRight x y => Sys2Proof.Machine.execShiftRight x y s
  | .subtractReverse x y => Sys2Proof.Machine.execSubtractReverse x y s
  | .shiftLeft x y => Sys2Proof.Machine.execShiftLeft x y s
  | .skipIfRegNe x y => Sys2Proof.Machine.execSkipIfRegNe x y s
  | .loadIndex nnn => Sys2Proof.Machine.execLoadIndex nnn s
  | .jumpPlusV0 nnn => Sys2Proof.Machine.execJumpPlusV0 nnn s
  | .random x kk => Sys2Proof.Machine.execRandom x kk s
  | .drawSprite x y n => Sys2Proof.Machine.execDrawSprite x y n s
  | .skipIfKeyDown x => Sys2Proof.Machine.execSkipIfKeyDown x s
  | .skipIfKeyUp x => Sys2Proof.Machine.execSkipIfKeyUp x s
  | .loadFromDelay x => Sys2Proof.Machine.execLoadFromDelay x s
  | .waitForKey x => Sys2Proof.Machine.execWaitForKey x s
  | .storeToDelay x => Sys2Proof.Machine.execStoreToDelay x s
  | .storeToSound x => Sys2Proof.Machine.execStoreToSound x s
  | .addToIndex x => Sys2Proof.Machine.execAddToIndex x s
  | .loadFontAddress x => Sys2Proof.Machine.execLoadFontAddress x s
  | .storeBcd x => Sys2Proof.Machine.execStoreBcd x s
  | .storeRegisters x => Sys2Proof.Machine.execStoreRegisters x s
  | .loadRegisters x => Sys2Proof.Machine.execLoadRegisters x s

end Sys2Proof.Machine
end

