-- ==== Sys2Proof/Machine/Events.lean ====
section
/-! DEFINITION. The events other than `step`: tick, key_down, key_up (spec/60_exceptions.md), power_on and load
(spec/70_reset_and_hazards.md). -/

namespace Sys2Proof.Machine

/-- One count of a timer: it stays at 0 once there (R735, R736). -/
def countDown (t : Byte) : Byte := if t.toNat > 0 then t - 1#8 else t

/-- `tick()` (R735). -/
def State.tick (s : State) : State := { s with dt := countDown s.dt, st := countDown s.st }

/-- A key-down's effect on an outstanding wait: the key code into the awaited register, and `Running` again (R722). -/
def State.resolveWait (s : State) (k : Key) : State :=
  match s.wait with
  | .awaitingKey r => { s.setV r (k.setWidth 8) with wait := .running }
  | .running => s

/-- `key_down(k)` (R720). -/
def State.keyDown (s : State) (k : Key) : State :=
  { s with keys := s.keys ||| (1#16 <<< k.toNat) }.resolveWait k

/-- `key_up(k)`: it never ends a wait (R721). -/
def State.keyUp (s : State) (k : Key) : State :=
  { s with keys := s.keys &&& ~~~(1#16 <<< k.toNat) }

/-- `power_on` (R800): every field takes the value of the "after power_on" column of R170.  The parameters are the machine's
own and stay; the driver's schedule and the step count are the model's. -/
def State.powerOn (s : State) : State :=
  { State.reset with params := s.params, schedule := s.schedule, stepCount := s.stepCount }

/-- The image's bytes at 0x200 and up, each beside its address (R810). -/
def imageCells (image : List Byte) : List (Nat × Byte) :=
  (List.range' 0x200 image.length).zip image

/-- `load(image)` (R810): everything reinitialised, then the image copied to 0x200; more than 3584 bytes fail and change
nothing (R811). -/
def State.load (s : State) (image : List Byte) : Except LoadError State :=
  if image.length > 3584 then .error (.programTooLarge image.length 3584)
  else .ok (s.powerOn.writeBytes (imageCells image))

/-- The state that a load leaves: the one it makes, or the state as it was where it fails (R810, R811). -/
def State.deliverLoad (s : State) (image : List Byte) : State :=
  match s.load image with
  | .error _ => s
  | .ok t => t

end Sys2Proof.Machine
end

