-- ==== Sys2Proof/Machine/Cycle.lean ====
section
/-! DEFINITION. The execution cycle (spec/40_execution_cycle.md) and the delivery of one event (spec/10_state.md rule R150). -/

namespace Sys2Proof.Machine

/-- Decode and dispatch the fetched bytes: an `Invalid(op)` becomes an error only here (R403, R404, R602). -/
def execDecoded (d : Decoded) (s : State) : Host.Outcome State Fault Refusal :=
  match d with
  | .instr i => exec i s
  | .invalid op => execInvalid op

/-- `step(r)` of R400: a waiting step changes nothing and fetches nothing (R401); otherwise fetch (R402), decode (R403) and
dispatch (R404).  The commit and the move of `pc` are the meaning's own (R405, R406). -/
def engineStep (s : State) : Host.Outcome State Fault Refusal :=
  match s.wait with
  | .awaitingKey _ => .next s
  | .running =>
    match s.fetch with
    | .error f => raise f
    | .ok (hi, lo) => execDecoded (decode hi lo) s

/-- The outcome with its next state changed. -/
def mapNext (g : State → State) : Host.Outcome State Fault Refusal → Host.Outcome State Fault Refusal
  | .next t => .next (g t)
  | .fault f => .fault f
  | .refused r => .refused r

/-- The state when the driver's event has been taken off the schedule. -/
def State.dropEvent (s : State) : State := { s with schedule := s.schedule.tail }

/-- The state when a step has been taken: its event is off the schedule, and the next step has a random byte of its own. -/
def State.retireStep (s : State) : State := { s.dropEvent with stepCount := s.stepCount + 1 }

/-- The next event of the driver, applied whole (R150, R151): the head of the schedule, or a step when the
schedule is empty.  Only a step can end in an error: a load that fails leaves the state as it was and the machine goes on (R811). -/
def nextEvent (s : State) : Host.Outcome State Fault Refusal :=
  match s.schedule with
  | [] => mapNext State.retireStep (engineStep s)
  | .step _ :: _ => mapNext State.retireStep (engineStep s)
  | .tick :: _ => .next s.tick.dropEvent
  | .keyDown k :: _ => .next (s.keyDown k).dropEvent
  | .keyUp k :: _ => .next (s.keyUp k).dropEvent
  | .load image :: _ => .next (s.deliverLoad image).dropEvent
  | .powerOn :: _ => .next s.powerOn.dropEvent

/-- The events at the head of the schedule that are not steps, left out. -/
def skipToStep : List Event → List Event
  | [] => []
  | .step r :: rest => .step r :: rest
  | .tick :: rest => skipToStep rest
  | .keyDown _ :: rest => skipToStep rest
  | .keyUp _ :: rest => skipToStep rest
  | .load _ :: rest => skipToStep rest
  | .powerOn :: rest => skipToStep rest

/-- `pc` itself where a fetch there succeeds, else the entry point 0x200 (R203, R212). -/
def fetchablePc (p : OobPolicy) (pc : Word) : Word :=
  match p with
  | .wrap => pc
  | .fault => if pc.toNat + 1 < 0x1000 then pc else 0x0200#16

/-- The state whose next step fetches and executes the word `op`: running, the driver's next event a step, `pc` where a fetch
succeeds, and the word's two bytes there, high byte first (R212, R401). -/
def State.placeWord (s : State) (op : Word) : State :=
  let t := { s with
    schedule := skipToStep s.schedule
    wait := .running
    pc := fetchablePc s.params.oobPolicy s.pc }
  (t.writeByte (t.pc.toNat % 0x1000) op.hi).writeByte ((t.pc.toNat + 1) % 0x1000) op.lo

end Sys2Proof.Machine
end

