-- ==== Sys2Proof/Machine/Driver.lean ====
section
/-! DEFINITION. The block as the driver sees it (spec/10_state.md rules R150, R151): each event answers a result and leaves a
state, and after an error the driver goes on from the unchanged state (spec/60_exceptions.md rules R712, R713). -/

namespace Sys2Proof.Machine

/-- The outcome of each instruction (R407), where it raises no error. -/
def flowOf (i : Instr) (s : State) : Option Flow :=
  match i with
  | .jump nnn => some (.jump (zext16 nnn))
  | .call nnn => some (.jump (zext16 nnn))
  | .ret => s.pop.toOption.map fun p => .jump p.1
  | .jumpPlusV0 nnn => some (flowJumpPlusV0 nnn s)
  | .skipIfEq x kk => some (flowSkipIfEq x kk s)
  | .skipIfNe x kk => some (flowSkipIfNe x kk s)
  | .skipIfRegEq x y => some (flowSkipIfRegEq x y s)
  | .skipIfRegNe x y => some (flowSkipIfRegNe x y s)
  | .skipIfKeyDown x => (flowSkipIfKeyDown x s).toOption
  | .skipIfKeyUp x => (flowSkipIfKeyUp x s).toOption
  | .clearDisplay | .sysCall _ | .loadImmediate _ _ | .addImmediate _ _ | .copy _ _ | .or _ _ | .and _ _ | .xor _ _
  | .addReg _ _ | .subtractReg _ _ | .shiftRight _ _ | .subtractReverse _ _ | .shiftLeft _ _ | .loadIndex _ | .random _ _
  | .drawSprite _ _ _ | .loadFromDelay _ | .waitForKey _ | .storeToDelay _ | .storeToSound _ | .addToIndex _
  | .loadFontAddress _ | .storeBcd _ | .storeRegisters _ | .loadRegisters _ => some .next

/-- The outcome the engine's next step reports, where it raises no error (R400, R401, R407). -/
def stepFlow (s : State) : Option Flow :=
  match s.wait with
  | .awaitingKey _ => some .waiting
  | .running =>
    match s.fetch with
    | .error _ => none
    | .ok (hi, lo) =>
      match decode hi lo with
      | .invalid _ => none
      | .instr i => flowOf i s

/-- The result of an event (R150): `Ok`, with the outcome where the event is a step, or the `Err` of a step or of a load. -/
inductive Response where
  | ok (o : Option Flow)
  | err (f : Fault)
  | loadErr (e : LoadError)
  | unmodelled (r : Refusal)
  deriving DecidableEq, Repr

/-- The event failed: its result is an `Err` (R150). -/
def Response.failed : Response → Bool
  | .ok _ | .unmodelled _ => false
  | .err _ | .loadErr _ => true

/-- The outcome an event reports beside `Ok`: a step's, and none for the other events (R150). -/
def Event.reported (e : Event) (s : State) : Option Flow :=
  match e with
  | .step _ => stepFlow s
  | .tick | .keyDown _ | .keyUp _ | .load _ | .powerOn => none

/-- The error an event reports as a load: only a load of more than 3584 bytes has one (R811). -/
def Event.loadError (e : Event) (s : State) : Option LoadError :=
  match e with
  | .load image =>
    match s.load image with
    | .error err => some err
    | .ok _ => none
  | .step _ | .tick | .keyDown _ | .keyUp _ | .powerOn => none

/-- One event given to the block: its result, and the state it leaves, unchanged where it fails (R150, R712, R811). -/
def respond (e : Event) (s : State) : Response × State :=
  match e.loadError s with
  | some err => (.loadErr err, s)
  | none =>
    match step { s with schedule := [e] } with
    | .next t => (.ok (e.reported s), t)
    | .fault f => (.err f, s)
    | .refused r => (.unmodelled r, s)

/-- The events of a driver, in its order (R151): their results and the state they leave. -/
def drive : List Event → State → List Response × State
  | [], s => ([], s)
  | e :: es, s =>
    let r := respond e s
    let d := drive es r.2
    (r.1 :: d.1, d.2)

/-! ### The snapshot (spec/10_state.md rules R130, R152): every field of `State` is readable; these are the encodings the spec
gives some of them -/

/-- The framebuffer's output bit at index `k = r * 64 + c`, row-major (R152). -/
def State.fbOutput (s : State) (k : Fin 2048) : Bool :=
  s.fb.pixel ⟨k.val % 64, by omega⟩ ⟨k.val / 64, by omega⟩

/-- The 1-bit `awaiting` field of the wait state (R130). -/
def WaitState.awaiting : WaitState → Bool
  | .running => false
  | .awaitingKey _ => true

/-- The 4-bit `reg` field of the wait state, held at 0 while running (R130). -/
def WaitState.reg : WaitState → Reg
  | .running => 0
  | .awaitingKey r => r

end Sys2Proof.Machine
end

