-- ==== Sys2Proof/Safety.lean ====
section
/-! DEFINITION. The terms in which claims about the machine are made: what an instruction may write, what a step may raise, what
is left unchanged, and the invariants of the state. -/

namespace Sys2Proof.Machine

/-- The pieces of state of spec/10_state.md rule R170. -/
inductive Field where
  | v | i | pc | sp | stack | dt | st | wait | keys | fb | mem
  deriving DecidableEq, Repr

/-- Every piece of state but those listed is in `t` as it was in `s`, memory said through the read of one byte.  The parameters
are always so. -/
def Unchanged (except : List Field) (s t : State) : Prop :=
  (.v ∉ except → ∀ x, t.getV x = s.getV x) ∧
  (.i ∉ except → t.i = s.i) ∧
  (.pc ∉ except → t.pc = s.pc) ∧
  (.sp ∉ except → t.sp = s.sp) ∧
  (.stack ∉ except → t.stack = s.stack) ∧
  (.dt ∉ except → t.dt = s.dt) ∧
  (.st ∉ except → t.st = s.st) ∧
  (.wait ∉ except → t.wait = s.wait) ∧
  (.keys ∉ except → t.keys = s.keys) ∧
  (.fb ∉ except → t.fb = s.fb) ∧
  (.mem ∉ except → ∀ a, t.readByte a = s.readByte a) ∧
  t.params = s.params

/-- The model's own fields, which stand for the driver, are in `t` as they were in `s`. -/
def SameDriver (s t : State) : Prop := t.schedule = s.schedule ∧ t.stepCount = s.stepCount

/-- The frame of an instruction: nothing but the listed pieces of state may differ. -/
def Frame (except : List Field) (s t : State) : Prop := Unchanged except s t ∧ SameDriver s t

/-- Every general register but those listed is as it was. -/
def RegsKept (except : List Reg) (s t : State) : Prop := ∀ x, x ∉ except → t.getV x = s.getV x

/-- The result and the flag of an instruction that writes both (R461): for `x = 15` the one `VF_ORDER` puts last. -/
def ResultAndFlag (s t : State) (x : Reg) (result flag : Nat) : Prop :=
  (x ≠ VF → (t.getV x).toNat = result ∧ (t.getV VF).toNat = flag) ∧
  (x = VF → s.params.vfOrder = .flagLast → (t.getV VF).toNat = flag) ∧
  (x = VF → s.params.vfOrder = .resultLast → (t.getV VF).toNat = result) ∧
  RegsKept [x, VF] s t

/-- The `n` addresses from `base` on are accessible: `OOB_POLICY` wraps, or each is below 0x1000 (R210). -/
def Accessible (s : State) (base n : Nat) : Prop := s.params.oobPolicy = .wrap ∨ ∀ k < n, base + k < 0x1000

/-- The driver's next event is a step. -/
def StepIsNext (s : State) : Prop := s.schedule = [] ∨ ∃ r rest, s.schedule = .step r :: rest

/-- The machine's next event raises no step error. -/
def SafeStep (s : State) : Prop := ∃ t, step s = .next t

/-- How many bytes of memory, from `I` on, the instruction reads or writes as data (R201). -/
def dataBytes : Instr → Nat
  | .drawSprite _ _ n => n.toNat
  | .storeBcd _ => 3
  | .storeRegisters x | .loadRegisters x => x.toNat + 1
  | .clearDisplay | .ret | .sysCall _ | .jump _ | .call _ | .skipIfEq _ _ | .skipIfNe _ _ | .skipIfRegEq _ _
  | .loadImmediate _ _ | .addImmediate _ _ | .copy _ _ | .or _ _ | .and _ _ | .xor _ _ | .addReg _ _ | .subtractReg _ _
  | .shiftRight _ _ | .subtractReverse _ _ | .shiftLeft _ _ | .skipIfRegNe _ _ | .loadIndex _ | .jumpPlusV0 _
  | .random _ _ | .skipIfKeyDown _ | .skipIfKeyUp _ | .loadFromDelay _ | .waitForKey _ | .storeToDelay _
  | .storeToSound _ | .addToIndex _ | .loadFontAddress _ => 0

/-- The errors an instruction raises and exactly when (R700, R701, R710). -/
def Raises (i : Instr) (s : State) : Fault → Prop
  | .stackOverflow => (∃ nnn, i = .call nnn) ∧ s.sp.val = 16
  | .stackUnderflow => i = .ret ∧ s.sp.val = 0
  | .addressOutOfRange a =>
    s.params.oobPolicy = .fault ∧ 0 < dataBytes i ∧ 0x1000 < s.i.toNat + dataBytes i ∧
      a = BitVec.ofNat 16 (max s.i.toNat 0x1000)
  | .keyOutOfRange v =>
    s.params.keyPolicy = .fault ∧ 16 ≤ v.toNat ∧
      ∃ x, (i = .skipIfKeyDown x ∨ i = .skipIfKeyUp x) ∧ s.getV x = v
  | .badInstruction _ => False

/-- The pieces of state each instruction may write, `pc` included (R101, R126 to R136, R201). -/
def writes : Instr → List Field
  | .clearDisplay => [.fb, .pc]
  | .drawSprite _ _ _ => [.fb, .v, .pc]
  | .call _ => [.stack, .sp, .pc]
  | .ret => [.sp, .pc]
  | .loadImmediate _ _ | .addImmediate _ _ | .copy _ _ | .or _ _ | .and _ _ | .xor _ _ | .addReg _ _ | .subtractReg _ _
  | .shiftRight _ _ | .subtractReverse _ _ | .shiftLeft _ _ | .random _ _ | .loadFromDelay _ | .loadRegisters _ => [.v, .pc]
  | .loadIndex _ | .loadFontAddress _ => [.i, .pc]
  | .addToIndex _ => [.i, .v, .pc]
  | .waitForKey _ => [.wait, .pc]
  | .storeToDelay _ => [.dt, .pc]
  | .storeToSound _ => [.st, .pc]
  | .storeBcd _ | .storeRegisters _ => [.mem, .pc]
  | .sysCall _ | .jump _ | .skipIfEq _ _ | .skipIfNe _ _ | .skipIfRegEq _ _ | .skipIfRegNe _ _ | .jumpPlusV0 _
  | .skipIfKeyDown _ | .skipIfKeyUp _ => [.pc]

/-- The general registers each instruction may write (R101, R120). -/
def destRegs (p : Params) : Instr → List Reg
  | .loadImmediate x _ | .addImmediate x _ | .copy x _ | .or x _ | .and x _ | .xor x _ | .random x _ | .loadFromDelay x => [x]
  | .addReg x _ | .subtractReg x _ | .shiftRight x _ | .subtractReverse x _ | .shiftLeft x _ => [x, VF]
  | .drawSprite _ _ _ => [VF]
  | .addToIndex _ => if p.indexVf = .on then [VF] else []
  | .loadRegisters x => (List.range (x.toNat + 1)).map (BitVec.ofNat 4)
  | .clearDisplay | .ret | .sysCall _ | .jump _ | .call _ | .skipIfEq _ _ | .skipIfNe _ _ | .skipIfRegEq _ _
  | .skipIfRegNe _ _ | .loadIndex _ | .jumpPlusV0 _ | .skipIfKeyDown _ | .skipIfKeyUp _ | .waitForKey _ | .storeToDelay _
  | .storeToSound _ | .loadFontAddress _ | .storeBcd _ | .storeRegisters _ => []

/-- The sprite of a draw covers pixel `(c, r)` with a 1 bit: some row below `n` and some column below 8 land there, `rowByte`
being the sprite's bytes (R502). -/
def SpriteCovers (vx vy : Byte) (n : Nat) (rowByte : Nat → Byte) (c : Fin 64) (r : Fin 32) : Prop :=
  ∃ row < n, ∃ col < 8, (rowByte row).getLsbD (7 - col) = true ∧
    c.val = (vx.toNat + col) % 64 ∧ r.val = (vy.toNat + row) % 32

/-- The state of R170 after a load of `image`, or after power-on for the empty image. -/
def AfterReset (image : List Byte) (s : State) : Prop :=
  (∀ x, s.getV x = 0) ∧ s.i = 0 ∧ s.pc = 0x0200#16 ∧ s.sp = 0 ∧ (∀ j (h : j < 16), s.stack[j] = 0) ∧
  s.dt = 0 ∧ s.st = 0 ∧ (∀ c r, s.fb.pixel c r = false) ∧ s.keys = 0 ∧ s.wait = .running ∧
  (∀ a (h : a < 80), s.readByte a = s.params.font[a]) ∧
  (∀ a, 80 ≤ a → a < 0x200 → s.readByte a = 0) ∧
  (∀ a, 0x200 ≤ a → s.readByte a = image.getD (a - 0x200) 0)

/-- `pc` and every return-address slot are even (R113). -/
def EvenPc (s : State) : Prop := s.pc.toNat % 2 = 0 ∧ ∀ j (h : j < 16), s.stack[j].toNat % 2 = 0

/-- The target of a jump, a call or a JumpPlusV0 is even (R113). -/
def EvenTarget (i : Instr) (s : State) : Prop :=
  (∀ nnn, i = .jump nnn ∨ i = .call nnn → nnn.toNat % 2 = 0) ∧
  (∀ nnn, i = .jumpPlusV0 nnn → (nnn.toNat + (s.getV 0).toNat) % 2 = 0)

end Sys2Proof.Machine
end

