-- ==== Sys2Proof/Certificates/Slice0/Obligations.lean ====
section
/-! DEFINITION. What is claimed of the machine, as statements for the provers.  Each docstring names the rules of spec/ it rests
on and, where it rests on a choice the spec or the model made, says which. -/

open Sys2Proof Sys2Proof.Machine

/-! ### Encoding and decoding (spec/30_encoding.md) -/

/-- Decoding the encoded word of a well-formed instruction gives the instruction back, with every operand at every value.
Formats and opcode map of R303, R310; the priority of the two exact words of the `0` group is the spec's decision D19. -/
def Obligations.DecodeOfEncodedInstruction : Prop :=
  ∀ i : Instr, i.wellFormed = true → decode (encode i).hi (encode i).lo = .instr i

/-- Each word has one meaning: what a pair of bytes decodes to is well-formed and encodes to those bytes. -/
def Obligations.EncodeOfDecodedWord : Prop :=
  ∀ (hi lo : Byte) (i : Instr), decode hi lo = .instr i → i.wellFormed = true ∧ (encode i).hi = hi ∧ (encode i).lo = lo

/-- The decoder agrees with the mask and match columns of the opcode map: the word of an instruction satisfies its row, and a word
is `Invalid`, carrying itself, exactly when it matches no row (R309, R310, R312). -/
def Obligations.DecodeAgreesWithOpcodeMap : Prop :=
  ∀ hi lo : Byte,
    (∀ i, decode hi lo = .instr i → (hi ++ lo) &&& i.rowMask = i.rowMatch ∧ (i.rowMask, i.rowMatch) ∈ opcodeMap) ∧
    (∀ op, decode hi lo = .invalid op ↔ op = hi ++ lo ∧ ∀ row ∈ opcodeMap, op &&& row.1 ≠ row.2)

/-- A sanity check: words written out from the spec's encodings decode to the instructions they stand for, one of each family. -/
def Obligations.SampleWordsDecode : Prop :=
  decode 0x00 0xE0 = .instr .clearDisplay ∧ decode 0x1A 0xBC = .instr (.jump 0xABC) ∧
  decode 0x31 0x42 = .instr (.skipIfEq 1 0x42) ∧ decode 0x81 0x24 = .instr (.addReg 1 2) ∧
  decode 0xD1 0x25 = .instr (.drawSprite 1 2 5) ∧ decode 0xE4 0x9E = .instr (.skipIfKeyDown 4) ∧
  decode 0xF3 0x15 = .instr (.storeToDelay 3) ∧ decode 0xFA 0x33 = .instr (.storeBcd 10) ∧
  decode 0x01 0x23 = .instr (.sysCall 0x123) ∧ decode 0xFF 0xFF = .invalid 0xFFFF

/-! ### The execution cycle (spec/40_execution_cycle.md, spec/20_memory.md) -/

/-- A step runs the decoded instruction: when the driver's next event is a step, the machine is running and the bytes at `pc` decode
to `i`, the step is `exec i`, after which the event is off the schedule and the step counted (R400 to R404; the schedule and the
count are the model's own, log entries 8 and 9). -/
def Obligations.StepRunsDecodedInstruction : Prop :=
  ∀ (s : State) (hi lo : Byte) (i : Instr), StepIsNext s → s.wait = .running → s.fetch = .ok (hi, lo) →
    decode hi lo = .instr i →
    (∀ t, exec i s = .next t → step s = .next { t with schedule := t.schedule.tail, stepCount := t.stepCount + 1 }) ∧
    (∀ f, exec i s = .fault f → step s = .fault f)

/-- While a key is awaited a step reports `Waiting`, changes no state and never fails, whatever `pc` is (R401).  That the event goes off
the schedule and the step is counted is the model's own bookkeeping (log entries 8 and 9, DESIGN CHOICE). -/
def Obligations.WaitingStepChangesNothing : Prop :=
  ∀ (s : State) (r : Reg), StepIsNext s → s.wait = .awaitingKey r →
    stepFlow s = some .waiting ∧
    ∃ t, step s = .next t ∧ Unchanged [] s t ∧ t.mem = s.mem ∧ t.schedule = s.schedule.tail ∧
      t.stepCount = s.stepCount + 1

/-- R212: fetch reads the two bytes at `pc` and `pc + 1`, the high byte first; both addresses are checked, and under `Fault` the first
of them that is 0x1000 or above is the one reported. -/
def Obligations.FetchIsBigEndianAndChecked : Prop :=
  ∀ s : State,
    (s.pc.toNat + 1 < 0x1000 → s.fetch = .ok (s.readByte s.pc.toNat, s.readByte (s.pc.toNat + 1))) ∧
    (s.params.oobPolicy = .wrap →
      s.fetch = .ok (s.readByte (s.pc.toNat % 0x1000), s.readByte ((s.pc.toNat + 1) % 0x1000))) ∧
    (s.params.oobPolicy = .fault → 0x1000 ≤ s.pc.toNat → s.fetch = .error (.addressOutOfRange s.pc)) ∧
    (s.params.oobPolicy = .fault → s.pc = 0x0FFF#16 → s.fetch = .error (.addressOutOfRange 0x1000#16))

/-- R402: a fetch that raises an error ends the step with that error, before decode. -/
def Obligations.FetchErrorEndsTheStep : Prop :=
  ∀ (s : State) (f : Fault), StepIsNext s → s.wait = .running → s.fetch = .error f → step s = .fault f

/-- R602: executing a word that matches no row of the opcode map raises `BadInstruction` with that word, always; and a step raises it
only so, when such a word is fetched to be executed. -/
def Obligations.InvalidWordRaisesBadInstruction : Prop :=
  ∀ (s : State) (op : Word),
    step s = .fault (.badInstruction op) ↔
      (StepIsNext s ∧ s.wait = .running ∧ s.fetch = .ok (op.hi, op.lo) ∧ ∀ row ∈ opcodeMap, op &&& row.1 ≠ row.2)

/-- The outcome of each instruction is the one the table of R407 gives it, `pc` moves by it and by nothing else, and only a waiting step
reports `Waiting` (R406, R407; the 16-bit wrap of `pc` is the spec's decision D5). -/
def Obligations.OutcomeMovesPc : Prop :=
  ∀ (i : Instr) (s t : State), exec i s = .next t →
    ∃ o, flowOf i s = some o ∧ o ≠ .waiting ∧
      t.pc.toNat = (match o with
        | .next => (s.pc.toNat + 2) % 0x10000
        | .skip => (s.pc.toNat + 4) % 0x10000
        | .jump a => a.toNat
        | .waiting => s.pc.toNat)

/-- A word placed by the host's interface is what the very next step fetches and executes, from every state with a canonical memory
(log entry 14). -/
def Obligations.PlacedWordIsFetchedNext : Prop :=
  ∀ (s : State) (op : Word), s.memWf = true →
    StepIsNext (s.withFetchWord 16 op.toNat) ∧ (s.withFetchWord 16 op.toNat).wait = .running ∧
    (s.withFetchWord 16 op.toNat).fetch = .ok (op.hi, op.lo) ∧
    Unchanged [.pc, .wait, .mem] s (s.withFetchWord 16 op.toNat)

/-! ### Flow control (spec/41_flow_control.md) -/

/-- R422: Jump sets `pc` to the zero-extended `nnn`, any target accepted, and does nothing else. -/
def Obligations.JumpGoesToNnn : Prop :=
  ∀ (nnn : Addr) (s : State),
    decodeWord (0x1#4 ++ nnn) = .instr (.jump nnn) ∧
    ∃ t, exec (.jump nnn) s = .next t ∧ t.pc.toNat = nnn.toNat ∧ Frame [.pc] s t

/-- R424: with a free slot Call pushes `pc + 2`, moves `sp` up by one and goes to `nnn`; with all 16 slots in use it raises
`StackOverflow`. -/
def Obligations.CallPushesReturnAddress : Prop :=
  ∀ (nnn : Addr) (s : State),
    decodeWord (0x2#4 ++ nnn) = .instr (.call nnn) ∧
    (∀ h : s.sp.val < 16, ∃ t, exec (.call nnn) s = .next t ∧
      t.stack[s.sp.val].toNat = (s.pc.toNat + 2) % 0x10000 ∧
      (∀ j (hj : j < 16), j ≠ s.sp.val → t.stack[j] = s.stack[j]) ∧
      t.sp.val = s.sp.val + 1 ∧ t.pc.toNat = nnn.toNat ∧ Frame [.stack, .sp, .pc] s t) ∧
    (s.sp.val = 16 → exec (.call nnn) s = .fault .stackOverflow)

/-- Return goes to the address in the top slot and moves `sp` down by one; with an empty stack it raises `StackUnderflow`.  That the
popped slot keeps its contents is the spec's decision D24. -/
def Obligations.ReturnPopsReturnAddress : Prop :=
  ∀ s : State,
    (∀ h : 0 < s.sp.val, ∃ t, exec .ret s = .next t ∧ t.pc = s.stack[s.sp.val - 1]'(by omega) ∧
      t.sp.val + 1 = s.sp.val ∧ Frame [.sp, .pc] s t) ∧
    (s.sp.val = 0 → exec .ret s = .fault .stackUnderflow)

/-- A Return in any state that still has the stack a Call left goes to the instruction after the Call, at the Call's own depth. -/
def Obligations.ReturnUndoesCall : Prop :=
  ∀ (nnn : Addr) (s t u : State), exec (.call nnn) s = .next t → u.stack = t.stack → u.sp = t.sp →
    ∃ w, exec .ret u = .next w ∧ w.pc.toNat = (s.pc.toNat + 2) % 0x10000 ∧ w.sp = s.sp

/-- JumpPlusV0 goes to `nnn + V[0]`, whatever `nnn`'s own nibbles are, not reduced to 12 bits (the spec's decision D26). -/
def Obligations.JumpPlusV0AddsV0 : Prop :=
  ∀ (nnn : Addr) (s : State),
    ∃ t, exec (.jumpPlusV0 nnn) s = .next t ∧ t.pc.toNat = nnn.toNat + (s.getV 0).toNat ∧ Frame [.pc] s t

/-! ### Conditional skips (spec/42_conditional_skip.md) -/

/-- R442, R444, R446, R448: each compares as it says, moves `pc` by 4 when its test holds and by 2 when it does not, and writes nothing. -/
def Obligations.SkipsCompareAndSkip : Prop :=
  ∀ (x y : Reg) (kk : Byte) (s : State),
    decodeWord (0x3#4 ++ (x ++ kk)) = .instr (.skipIfEq x kk) ∧
    decodeWord (0x4#4 ++ (x ++ kk)) = .instr (.skipIfNe x kk) ∧
    decodeWord (0x5#4 ++ (x ++ (y ++ 0x0#4))) = .instr (.skipIfRegEq x y) ∧
    decodeWord (0x9#4 ++ (x ++ (y ++ 0x0#4))) = .instr (.skipIfRegNe x y) ∧
    (∃ t, exec (.skipIfEq x kk) s = .next t ∧ t.pc = s.pc + (if s.getV x = kk then 4 else 2) ∧ Frame [.pc] s t) ∧
    (∃ t, exec (.skipIfNe x kk) s = .next t ∧ t.pc = s.pc + (if s.getV x = kk then 2 else 4) ∧ Frame [.pc] s t) ∧
    (∃ t, exec (.skipIfRegEq x y) s = .next t ∧ t.pc = s.pc + (if s.getV x = s.getV y then 4 else 2) ∧ Frame [.pc] s t) ∧
    (∃ t, exec (.skipIfRegNe x y) s = .next t ∧ t.pc = s.pc + (if s.getV x = s.getV y then 2 else 4) ∧ Frame [.pc] s t)

/-! ### Register loads, ALU operations and Random (spec/43_arithmetic.md) -/

/-- 6xkk, 7xkk and 8xy0 to 8xy3 write their value to `V[x]` and to no other register, `V[15]` included; they read it before they write.
The meanings are those the spec takes from the names (its decisions D8, D9, D28). -/
def Obligations.LoadsAndLogicWriteOneRegister : Prop :=
  ∀ (x y : Reg) (kk : Byte) (s : State),
    (∃ t, exec (.loadImmediate x kk) s = .next t ∧ t.getV x = kk ∧
      RegsKept [x] s t ∧ t.pc = s.pc + 2 ∧ Frame [.v, .pc] s t) ∧
    (∃ t, exec (.addImmediate x kk) s = .next t ∧ (t.getV x).toNat = ((s.getV x).toNat + kk.toNat) % 256 ∧
      RegsKept [x] s t ∧ t.pc = s.pc + 2 ∧ Frame [.v, .pc] s t) ∧
    (∃ t, exec (.copy x y) s = .next t ∧ t.getV x = s.getV y ∧
      RegsKept [x] s t ∧ t.pc = s.pc + 2 ∧ Frame [.v, .pc] s t) ∧
    (∃ t, exec (.or x y) s = .next t ∧ (∀ b, (t.getV x).getLsbD b = ((s.getV x).getLsbD b || (s.getV y).getLsbD b)) ∧
      RegsKept [x] s t ∧ t.pc = s.pc + 2 ∧ Frame [.v, .pc] s t) ∧
    (∃ t, exec (.and x y) s = .next t ∧ (∀ b, (t.getV x).getLsbD b = ((s.getV x).getLsbD b && (s.getV y).getLsbD b)) ∧
      RegsKept [x] s t ∧ t.pc = s.pc + 2 ∧ Frame [.v, .pc] s t) ∧
    (∃ t, exec (.xor x y) s = .next t ∧ (∀ b, (t.getV x).getLsbD b = ((s.getV x).getLsbD b ^^ (s.getV y).getLsbD b)) ∧
      RegsKept [x] s t ∧ t.pc = s.pc + 2 ∧ Frame [.v, .pc] s t)

/-- R474: AddReg gives `V[x]` the sum modulo 256 and `V[15]` the carry; for `x = 15` the one `VF_ORDER` puts last stays. -/
def Obligations.AddRegSumAndCarry : Prop :=
  ∀ (x y : Reg) (s : State),
    decodeWord (0x8#4 ++ (x ++ (y ++ 0x4#4))) = .instr (.addReg x y) ∧
    ∃ t, exec (.addReg x y) s = .next t ∧
      ResultAndFlag s t x (((s.getV x).toNat + (s.getV y).toNat) % 256)
        (if (s.getV x).toNat + (s.getV y).toNat > 255 then 1 else 0) ∧
      t.pc = s.pc + 2 ∧ Frame [.v, .pc] s t

/-- R476: SubtractReg gives `V[x]` the difference modulo 256 and `V[15]` 1 when there is no borrow; for `x = 15` the one `VF_ORDER` puts
last stays. -/
def Obligations.SubtractRegDifferenceAndNotBorrow : Prop :=
  ∀ (x y : Reg) (s : State),
    decodeWord (0x8#4 ++ (x ++ (y ++ 0x5#4))) = .instr (.subtractReg x y) ∧
    ∃ t, exec (.subtractReg x y) s = .next t ∧
      ResultAndFlag s t x (((s.getV x).toNat + 256 - (s.getV y).toNat) % 256)
        (if (s.getV x).toNat ≥ (s.getV y).toNat then 1 else 0) ∧
      t.pc = s.pc + 2 ∧ Frame [.v, .pc] s t

/-- SubtractReverse is SubtractReg with its operands exchanged, destination `V[x]` (the flag's condition is the spec's own inference
from "analogous to above"). -/
def Obligations.SubtractReverseDifferenceAndNotBorrow : Prop :=
  ∀ (x y : Reg) (s : State),
    ∃ t, exec (.subtractReverse x y) s = .next t ∧
      ResultAndFlag s t x (((s.getV y).toNat + 256 - (s.getV x).toNat) % 256)
        (if (s.getV y).toNat ≥ (s.getV x).toNat then 1 else 0) ∧
      t.pc = s.pc + 2 ∧ Frame [.v, .pc] s t

/-- The shifts move the source by one bit into `V[x]` and the bit shifted out into `V[15]`; the source is `V[x]` or `V[y]` as
`SHIFT_SOURCE` says, and for `x = 15` the write `VF_ORDER` puts last stays (the spec's decisions D6, D7). -/
def Obligations.ShiftsMoveOneBit : Prop :=
  ∀ (x y : Reg) (s : State) (src : Byte),
    (s.params.shiftSource = .vx → src = s.getV x) → (s.params.shiftSource = .vy → src = s.getV y) →
    (∃ t, exec (.shiftRight x y) s = .next t ∧ ResultAndFlag s t x (src.toNat / 2) (src.toNat % 2) ∧
      t.pc = s.pc + 2 ∧ Frame [.v, .pc] s t) ∧
    (∃ t, exec (.shiftLeft x y) s = .next t ∧ ResultAndFlag s t x (src.toNat * 2 % 256) (src.toNat / 128) ∧
      t.pc = s.pc + 2 ∧ Frame [.v, .pc] s t)

/-- Random gives `V[x]` the step's random byte under the mask `kk` (R484).  That the byte is the one the scheduled step carries, and with
no schedule the free byte of this step, of which nothing is assumed, is the model's choice (log entries 8 and 9, DESIGN CHOICE). -/
def Obligations.RandomMasksTheStepsByte : Prop :=
  ∀ (x : Reg) (kk : Byte) (s : State),
    decodeWord (0xC#4 ++ (x ++ kk)) = .instr (.random x kk) ∧
    ∃ t, exec (.random x kk) s = .next t ∧
      (∀ r rest, s.schedule = .step r :: rest → t.getV x = r &&& kk) ∧
      (s.schedule = [] → t.getV x = Config.freeRandomByte s.stepCount &&& kk) ∧
      RegsKept [x] s t ∧ t.pc = s.pc + 2 ∧ Frame [.v, .pc] s t

/-- No instruction but Random reads the random byte: with another schedule and another step count, the instruction answers the same, and
leaves the same state but for those two fields of the model's own (R408, R409 as the spec derives them). -/
def Obligations.OnlyRandomReadsTheRandomByte : Prop :=
  ∀ (i : Instr) (s : State) (es : List Event) (n : Nat), (∀ x kk, i ≠ .random x kk) →
    exec i { s with schedule := es, stepCount := n } =
      mapNext (fun t => { t with schedule := es, stepCount := n }) (exec i s)

/-! ### Display (spec/44_display.md) -/

/-- R500: ClearDisplay clears all 2048 pixels and does nothing else. -/
def Obligations.ClearDisplayClearsEveryPixel : Prop :=
  decodeWord 0x00E0#16 = .instr .clearDisplay ∧
  ∀ s : State, ∃ t, exec .clearDisplay s = .next t ∧ (∀ c r, t.fb.pixel c r = false) ∧ t.pc = s.pc + 2 ∧ Frame [.fb, .pc] s t

/-- DrawSprite toggles exactly the pixels that a 1 bit of the sprite covers, coordinates wrapping at both edges, and leaves in `V[15]`
whether one of them was set; the coordinates are the registers' values before the instruction, and nothing else changes.  Bit 7 is the
leftmost column, and coordinates are read before `V[15]` is cleared (the spec's decisions D16, D17). -/
def Obligations.DrawSpriteXorsPixels : Prop :=
  ∀ (x y : Reg) (n : BitVec 4) (s : State) (rowByte : Nat → Byte), Accessible s s.i.toNat n.toNat →
    (∀ row < n.toNat, rowByte row = s.readByte ((s.i.toNat + row) % 0x1000)) →
    ∃ t, exec (.drawSprite x y n) s = .next t ∧
      (∀ c r, SpriteCovers (s.getV x) (s.getV y) n.toNat rowByte c r → t.fb.pixel c r = !s.fb.pixel c r) ∧
      (∀ c r, ¬ SpriteCovers (s.getV x) (s.getV y) n.toNat rowByte c r → t.fb.pixel c r = s.fb.pixel c r) ∧
      ((∃ c r, SpriteCovers (s.getV x) (s.getV y) n.toNat rowByte c r ∧ s.fb.pixel c r = true) → t.getV VF = 1) ∧
      ((∀ c r, SpriteCovers (s.getV x) (s.getV y) n.toNat rowByte c r → s.fb.pixel c r = false) → t.getV VF = 0) ∧
      RegsKept [VF] s t ∧ t.pc = s.pc + 2 ∧ Frame [.fb, .v, .pc] s t

/-- The same sprite drawn twice at the same position restores the framebuffer, and the second draw sets `V[15]` exactly when the first
changed a pixel from unset to set (what R504 derives). -/
def Obligations.DrawSpriteTwiceRestoresFramebuffer : Prop :=
  ∀ (x y : Reg) (n : BitVec 4) (s t : State), exec (.drawSprite x y n) s = .next t → t.getV x = s.getV x → t.getV y = s.getV y →
    ∃ u, exec (.drawSprite x y n) t = .next u ∧ u.fb = s.fb ∧
      ((u.getV VF).toNat = 1 ↔ ∃ c r, s.fb.pixel c r = false ∧ t.fb.pixel c r = true)

/-! ### Keyboard (spec/45_keyboard.md, spec/60_exceptions.md) -/

/-- The key skips test the key that `V[x]` names, write nothing, and for a value of 16 or more do what `KEY_POLICY` says (the spec's
decision D14, at all three of its values). -/
def Obligations.KeySkipsTestTheKeyMask : Prop :=
  ∀ (x : Reg) (s : State),
    ((s.getV x).toNat < 16 → s.keys.getLsbD (s.getV x).toNat = true →
      (∃ t, exec (.skipIfKeyDown x) s = .next t ∧ t.pc = s.pc + 4 ∧ Frame [.pc] s t) ∧
      (∃ t, exec (.skipIfKeyUp x) s = .next t ∧ t.pc = s.pc + 2 ∧ Frame [.pc] s t)) ∧
    ((s.getV x).toNat < 16 → s.keys.getLsbD (s.getV x).toNat = false →
      (∃ t, exec (.skipIfKeyDown x) s = .next t ∧ t.pc = s.pc + 2 ∧ Frame [.pc] s t) ∧
      (∃ t, exec (.skipIfKeyUp x) s = .next t ∧ t.pc = s.pc + 4 ∧ Frame [.pc] s t)) ∧
    (16 ≤ (s.getV x).toNat → s.params.keyPolicy = .fault →
      exec (.skipIfKeyDown x) s = .fault (.keyOutOfRange (s.getV x)) ∧
      exec (.skipIfKeyUp x) s = .fault (.keyOutOfRange (s.getV x))) ∧
    (16 ≤ (s.getV x).toNat → s.params.keyPolicy = .lowNibble →
      (∃ t, exec (.skipIfKeyDown x) s = .next t ∧ Frame [.pc] s t ∧
        t.pc = s.pc + (if s.keys.getLsbD ((s.getV x).toNat % 16) = true then 4 else 2)) ∧
      (∃ t, exec (.skipIfKeyUp x) s = .next t ∧ Frame [.pc] s t ∧
        t.pc = s.pc + (if s.keys.getLsbD ((s.getV x).toNat % 16) = true then 2 else 4))) ∧
    (16 ≤ (s.getV x).toNat → s.params.keyPolicy = .notPressed →
      (∃ t, exec (.skipIfKeyDown x) s = .next t ∧ t.pc = s.pc + 2 ∧ Frame [.pc] s t) ∧
      (∃ t, exec (.skipIfKeyUp x) s = .next t ∧ t.pc = s.pc + 4 ∧ Frame [.pc] s t))

/-- WaitForKey enters the wait for register `x`, whatever keys are held, and moves `pc` past itself; `V[x]` is not written yet (the
outcome `Next` is the spec's decision D15). -/
def Obligations.WaitForKeyEntersTheWait : Prop :=
  ∀ (x : Reg) (s : State),
    ∃ t, exec (.waitForKey x) s = .next t ∧ t.wait = .awaitingKey x ∧ t.pc = s.pc + 2 ∧ Frame [.wait, .pc] s t

/-- A key-down sets its bit of the key mask and, while a key is awaited, writes the key code to the awaited register and ends the wait; it
changes nothing else (R720).  That the event goes off the schedule and no step is counted is the model's own bookkeeping (log entries 8
and 9, DESIGN CHOICE). -/
def Obligations.KeyDownSetsKeyAndEndsWait : Prop :=
  ∀ (k : Key) (rest : List Event) (s : State), s.schedule = .keyDown k :: rest →
    ∃ t, step s = .next t ∧ (∀ j : Key, t.keys.getLsbD j.toNat = (decide (j = k) || s.keys.getLsbD j.toNat)) ∧
      t.wait = .running ∧ (∀ r, s.wait = .awaitingKey r → (t.getV r).toNat = k.toNat ∧ RegsKept [r] s t) ∧
      (s.wait = .running → RegsKept [] s t) ∧ Unchanged [.keys, .v, .wait] s t ∧ t.schedule = rest ∧ t.stepCount = s.stepCount

/-- A key-up clears its bit of the key mask and changes nothing else: it never ends a wait (R721 as the spec derives it).
That the event goes off the schedule and no step is counted is the model's own bookkeeping (log entries 8 and 9, DESIGN CHOICE). -/
def Obligations.KeyUpOnlyClearsKey : Prop :=
  ∀ (k : Key) (rest : List Event) (s : State), s.schedule = .keyUp k :: rest →
    ∃ t, step s = .next t ∧ (∀ j : Key, t.keys.getLsbD j.toNat = (decide (j ≠ k) && s.keys.getLsbD j.toNat)) ∧
      Unchanged [.keys] s t ∧ t.schedule = rest ∧ t.stepCount = s.stepCount

/-- Only a key-down, a load of a program that fits or a power-on ends a wait: any other event, a step and a load that fails included,
leaves it as it is (R722, R752, R811, R813; the events stand in the model's own schedule, log entry 8, DESIGN CHOICE). -/
def Obligations.OnlyKeyDownOrResetEndsAWait : Prop :=
  ∀ (s t : State) (r : Reg), s.wait = .awaitingKey r → step s = .next t →
    (t.wait = .awaitingKey r ∧ t.getV r = s.getV r ∧ t.pc = s.pc) ∨
    (t.wait = .running ∧ ∃ k rest, s.schedule = .keyDown k :: rest ∧ (t.getV r).toNat = k.toNat) ∨
    (t.wait = .running ∧ ∃ image rest, s.schedule = .load image :: rest ∧ image.length ≤ 3584) ∨
    (t.wait = .running ∧ ∃ rest, s.schedule = .powerOn :: rest)

/-! ### Timers (spec/46_timers.md, spec/60_exceptions.md) -/

/-- R540, R542, R544: the timer instructions move a value between `V[x]` and a timer, and do nothing else. -/
def Obligations.TimerInstructionsMoveValues : Prop :=
  ∀ (x : Reg) (s : State),
    decodeWord (0xF#4 ++ (x ++ 0x07#8)) = .instr (.loadFromDelay x) ∧
    decodeWord (0xF#4 ++ (x ++ 0x15#8)) = .instr (.storeToDelay x) ∧
    decodeWord (0xF#4 ++ (x ++ 0x18#8)) = .instr (.storeToSound x) ∧
    (∃ t, exec (.loadFromDelay x) s = .next t ∧ t.getV x = s.dt ∧ RegsKept [x] s t ∧ t.pc = s.pc + 2 ∧ Frame [.v, .pc] s t) ∧
    (∃ t, exec (.storeToDelay x) s = .next t ∧ t.dt = s.getV x ∧ t.pc = s.pc + 2 ∧ Frame [.dt, .pc] s t) ∧
    (∃ t, exec (.storeToSound x) s = .next t ∧ t.st = s.getV x ∧ t.pc = s.pc + 2 ∧ Frame [.st, .pc] s t)

/-- A tick counts each timer down by one, a timer at zero staying there, in every state of the core, waiting or not, and changes nothing
else (R735, R736; that a tick applies in every state is the spec's decision D30).  That the event goes off the schedule and no step is
counted is the model's own bookkeeping (log entries 8 and 9, DESIGN CHOICE). -/
def Obligations.TickCountsBothTimersDown : Prop :=
  ∀ (rest : List Event) (s : State), s.schedule = .tick :: rest →
    ∃ t, step s = .next t ∧ t.dt.toNat = s.dt.toNat - 1 ∧ t.st.toNat = s.st.toNat - 1 ∧ Unchanged [.dt, .st] s t ∧
      t.schedule = rest ∧ t.stepCount = s.stepCount

/-! ### The index register and memory (spec/47_memory_indirect.md, spec/20_memory.md) -/

/-- Annn and Fx29 set `I` to `nnn` and to five times `V[x]`; Fx1E adds `V[x]` to `I` modulo 0x10000 and writes `V[15]` only under
`INDEX_VF = On`, 1 when the unbounded sum exceeds the limit (the spec's decisions D5, D10, D13, D28). -/
def Obligations.IndexInstructionsSetI : Prop :=
  ∀ (nnn : Addr) (x : Reg) (s : State),
    (∃ t, exec (.loadIndex nnn) s = .next t ∧ t.i.toNat = nnn.toNat ∧ t.pc = s.pc + 2 ∧ Frame [.i, .pc] s t) ∧
    (∃ t, exec (.loadFontAddress x) s = .next t ∧ t.i.toNat = (s.getV x).toNat * 5 ∧ t.pc = s.pc + 2 ∧ Frame [.i, .pc] s t) ∧
    (∃ t, exec (.addToIndex x) s = .next t ∧ t.i.toNat = (s.i.toNat + (s.getV x).toNat) % 0x10000 ∧
      (s.params.indexVf = .off → RegsKept [] s t) ∧
      (s.params.indexVf = .on → RegsKept [VF] s t ∧
        (t.getV VF).toNat = if s.i.toNat + (s.getV x).toNat > s.params.indexVfLimit.toNat then 1 else 0) ∧
      t.pc = s.pc + 2 ∧ Frame [.i, .v, .pc] s t)

/-- StoreBcd stores the hundreds, tens and ones of `V[x]` at the addresses that `I`, `I + 1` and `I + 2` resolve to, each a digit and
together the value, and every other byte of memory and every register stays (the digit order is the spec's decision D12; the address
policy D3 at both its values; a canonical memory is the model's convention, log entry 10). -/
def Obligations.StoreBcdStoresThreeDigits : Prop :=
  ∀ (x : Reg) (s : State), s.memWf = true → Accessible s s.i.toNat 3 →
    ∃ t h d o, exec (.storeBcd x) s = .next t ∧
      resolveAddr s.params.oobPolicy s.i.toNat = .ok h ∧ resolveAddr s.params.oobPolicy (s.i.toNat + 1) = .ok d ∧
      resolveAddr s.params.oobPolicy (s.i.toNat + 2) = .ok o ∧
      (t.readByte h).toNat ≤ 2 ∧ (t.readByte d).toNat ≤ 9 ∧ (t.readByte o).toNat ≤ 9 ∧
      100 * (t.readByte h).toNat + 10 * (t.readByte d).toNat + (t.readByte o).toNat = (s.getV x).toNat ∧
      (∀ a, a ≠ h → a ≠ d → a ≠ o → t.readByte a = s.readByte a) ∧ t.pc = s.pc + 2 ∧ Frame [.mem, .pc] s t

/-- StoreRegisters stores `V[k]` at the address that `I + k` resolves to, for each `k` from 0 to `x`; every byte at another address, every
register and `I` stay (the spec's decisions D3, at both its values, and D11; a canonical memory is the model's convention, log entry
10). -/
def Obligations.StoreRegistersStoresV0ToVx : Prop :=
  ∀ (x : Reg) (s : State), s.memWf = true → Accessible s s.i.toNat (x.toNat + 1) →
    ∃ t, exec (.storeRegisters x) s = .next t ∧
      (∀ k ≤ x.toNat, ∀ a, resolveAddr s.params.oobPolicy (s.i.toNat + k) = .ok a → t.readByte a = s.getV (BitVec.ofNat 4 k)) ∧
      (∀ a, (∀ k ≤ x.toNat, resolveAddr s.params.oobPolicy (s.i.toNat + k) ≠ .ok a) → t.readByte a = s.readByte a) ∧
      t.pc = s.pc + 2 ∧ Frame [.mem, .pc] s t

/-- LoadRegisters gives `V[k]` the byte at the address that `I + k` resolves to, for each `k` from 0 to `x`; the registers above `x`, `I`
and memory stay (the spec's decisions D3, at both its values, and D11). -/
def Obligations.LoadRegistersLoadsV0ToVx : Prop :=
  ∀ (x : Reg) (s : State), Accessible s s.i.toNat (x.toNat + 1) →
    ∃ t, exec (.loadRegisters x) s = .next t ∧
      (∀ k : Reg, k.toNat ≤ x.toNat → ∀ a, resolveAddr s.params.oobPolicy (s.i.toNat + k.toNat) = .ok a →
        t.getV k = s.readByte a) ∧
      (∀ k : Reg, x.toNat < k.toNat → t.getV k = s.getV k) ∧ t.pc = s.pc + 2 ∧ Frame [.v, .pc] s t

/-- What StoreRegisters stored, LoadRegisters loads back, from any state with that memory, that `I` and those parameters.  With the
`I` that StoreRegisters leaves it rests on the spec's decision D11, that `I` stays (log entry 22, DESIGN CHOICE, unsafe: untrue of a
chip that advances `I`); a canonical memory is the model's convention (log entry 10). -/
def Obligations.LoadRegistersUndoesStoreRegisters : Prop :=
  ∀ (x : Reg) (s t u : State), s.memWf = true → exec (.storeRegisters x) s = .next t →
    u.mem = t.mem → u.i = t.i → u.params = t.params →
    ∃ w, exec (.loadRegisters x) u = .next w ∧ ∀ k : Reg, k.toNat ≤ x.toNat → w.getV k = s.getV k

/-- Self-modifying code: two bytes that StoreRegisters stores are what a fetch at their address reads, with nothing in between (R221 as
the spec derives it; a canonical memory is the model's convention, log entry 10). -/
def Obligations.StoredBytesAreFetched : Prop :=
  ∀ (x : Reg) (s t : State) (k : Nat), s.memWf = true → exec (.storeRegisters x) s = .next t →
    k + 1 ≤ x.toNat → s.i.toNat + k + 1 < 0x1000 →
    ({ t with pc := BitVec.ofNat 16 (s.i.toNat + k) } : State).fetch =
      .ok (s.getV (BitVec.ofNat 4 k), s.getV (BitVec.ofNat 4 (k + 1)))

/-! ### System words (spec/48_system.md) -/

/-- R600: SysCall only advances `pc`, for every `nnn` but the two words that are other instructions. -/
def Obligations.SysCallIsANoOp : Prop :=
  ∀ (nnn : Addr) (s : State), nnn ≠ 0x0E0#12 → nnn ≠ 0x0EE#12 →
    decodeWord (0x0#4 ++ nnn) = .instr (.sysCall nnn) ∧
    ∃ t, exec (.sysCall nnn) s = .next t ∧ t.pc = s.pc + 2 ∧ Frame [.pc] s t

/-! ### Errors (spec/60_exceptions.md) -/

/-- The errors of an instruction are exactly those listed for it, each exactly when its rule says: Call on a full stack, Return on an empty
one, a memory access out of range, with its first such address, a key number out of range; and no instruction is refused (R700, R701,
R710; the two range errors are the spec's decisions D3, D14, D18). -/
def Obligations.InstructionErrorsAreExactlyThoseListed : Prop :=
  ∀ (i : Instr) (s : State),
    (∀ f, exec i s = .fault f ↔ Raises i s f) ∧ (∀ r, exec i s ≠ .refused r)

/-- Every instruction completes in every state in which it raises none of the errors listed for it. -/
def Obligations.EveryInstructionCompletesUnlessItRaises : Prop :=
  ∀ (i : Instr) (s : State), (∀ f, ¬ Raises i s f) → ∃ t, exec i s = .next t

/-- An event that fails, a step or a load, leaves the state as it was; repeated, it fails in the same way; a tick and a key
signal still succeed after it, and a load of a program that fits makes the core run again (R712, R713, R723, R811, R813, which rest on
the spec's decisions D18 and D22). -/
def Obligations.ErrorLeavesStateAndDriverGoesOn : Prop :=
  ∀ (e : Event) (s t : State) (r : Response), respond e s = (r, t) → r.failed = true →
    t = s ∧ respond e t = (r, t) ∧ (respond .tick t).1 = .ok none ∧
    (∀ k, (respond (.keyDown k) t).1 = .ok none ∧ (respond (.keyUp k) t).1 = .ok none) ∧
    (∀ image : List Byte, image.length ≤ 3584 →
      (respond (.load image) t).1 = .ok none ∧ (respond (.load image) t).2.wait = .running)

/-! ### Reset and load (spec/70_reset_and_hazards.md, spec/10_state.md) -/

/-- The state the model starts from, and the state after every power-on, is the state after power-on of R170, which rests on the spec's
decisions D20 and D23.  That the model starts with the parameters' default values is a choice where the spec leaves them open (D3, D6,
D7, D10, D14, D23; log entries 2 to 7), that a power-on keeps the parameters is the model's (log entry 15, DESIGN CHOICE), and so is the
canonical form of the memory (log entry 10, DEDUCED). -/
def Obligations.ResetStateIsPowerOnState : Prop :=
  AfterReset [] State.reset ∧ State.reset.params = defaultParams ∧
  ∀ (s : State) (rest : List Event), s.schedule = .powerOn :: rest →
    ∃ t, step s = .next t ∧ AfterReset [] t ∧ t.params = s.params ∧ t.memWf = true

/-- A load of at most 3584 bytes reinitialises every piece of state, from any state, and leaves the image at 0x200, the font at 0x000 and
zeros elsewhere (R170, R810, R812; the spec's decision D21).  That the parameters and the rest of the schedule stay (log entries 8 and
15, DESIGN CHOICE) and that the memory is in canonical form (log entry 10, DEDUCED) are the model's own conventions. -/
def Obligations.LoadReinitialisesEverything : Prop :=
  ∀ (image : List Byte) (rest : List Event) (s : State), s.schedule = .load image :: rest → image.length ≤ 3584 →
    ∃ t, step s = .next t ∧ AfterReset image t ∧ t.params = s.params ∧ t.memWf = true ∧ t.schedule = rest

/-- A load of more than 3584 bytes answers `ProgramTooLarge` with the length and the maximum and leaves the state as it was, and the machine
goes on with the driver's next event (R811; the spec's decision D22; that a run takes the event off its schedule is the model's own, log
entries 8 and 12, DESIGN CHOICE). -/
def Obligations.OversizedLoadFails : Prop :=
  ∀ (image : List Byte) (rest : List Event) (s : State), 3584 < image.length →
    (s.schedule = .load image :: rest → step s = .next { s with schedule := rest }) ∧
    respond (.load image) s = (.loadErr (.programTooLarge image.length 3584), s)

/-! ### Rules of the whole machine -/

/-- Every step keeps the memory in its canonical form: strictly rising addresses below 0x1000, no cell equal to what an unlisted address
reads as.  A convention of the model (log entry 10). -/
def Obligations.MemoryStaysCanonical : Prop :=
  ∀ s t : State, s.memWf = true → step s = .next t → t.memWf = true

/-- The memory is in canonical form after reset, where nothing is listed. -/
def Obligations.ResetMemoryIsCanonical : Prop := State.reset.memWf = true ∧ State.reset.mem = []

/-- What each instruction leaves unchanged, for all 35: it writes no piece of state but those its rule names, no general register but its
destinations, and `V[15]` only where it is a destination or the flag (R101, R120, R126 to R131, R135, R136, R201). -/
def Obligations.EveryInstructionKeepsItsFrame : Prop :=
  ∀ (i : Instr) (s t : State), exec i s = .next t → Frame (writes i) s t ∧ RegsKept (destRegs s.params i) s t

/-- No event changes the parameters of the machine (log entry 1). -/
def Obligations.ParametersNeverChange : Prop :=
  ∀ s t : State, step s = .next t → t.params = s.params

/-- `pc` stays even while every jump's target is even: from a state whose `pc` and return addresses are even, an instruction whose target
is even leaves them so (R113, which rests on the spec's decision D4). -/
def Obligations.PcStaysEvenUnderEvenTargets : Prop :=
  ∀ (i : Instr) (s t : State), EvenPc s → EvenTarget i s → exec i s = .next t → EvenPc t

/-- The two views of the driver agree: where no step of a schedule fails, running the machine over the schedule leaves the state that giving
it the events one by one leaves, loads that fail included (R150, R151, R811; the schedule is the model's own, log entries 8 and 12). -/
def Obligations.ScheduledRunIsTheDriversRun : Prop :=
  ∀ (es : List Event) (s : State), s.schedule = es →
    (∀ r ∈ (drive es { s with schedule := [] }).1, (∃ o, r = .ok o) ∨ ∃ e, r = .loadErr e) →
    Host.Core.run Sys2Proof.core es.length s = .next (drive es { s with schedule := [] }).2
end

