-- ==== Sys2Proof/Laws/Decode.lean ====
section
/-! SUPPORT. The fields of an encoded word, format by format (spec/30_encoding.md rules R302, R303), and a word as its bytes. -/

namespace Sys2Proof

/-- A word is its high byte followed by its low byte. -/
@[simp] theorem Word.hi_append_lo (op : Word) : op.hi ++ op.lo = op := by
  simp only [Word.hi, Word.lo]
  exact BitVec.extractLsb'_append_extractLsb'_eq_extractLsb' (by omega) |>.trans (by simp)

@[simp] theorem Word.hi_append (hi lo : Byte) : Word.hi (hi ++ lo) = hi := by
  ext i h; simp only [Word.hi, BitVec.getElem_extractLsb', BitVec.getLsbD_append]; grind

@[simp] theorem Word.lo_append (hi lo : Byte) : Word.lo (hi ++ lo) = lo := by
  ext i h; simp only [Word.lo, BitVec.getElem_extractLsb', BitVec.getLsbD_append]; grind

@[simp] theorem opField_group_NNN (p : BitVec 4) (nnn : Addr) : opField 12 4 (encodeNNN p nnn) = p := by
  ext i h; simp only [opField, encodeNNN, BitVec.getElem_extractLsb', BitVec.getLsbD_append]; grind

@[simp] theorem opField_nnn_NNN (p : BitVec 4) (nnn : Addr) : opField 0 12 (encodeNNN p nnn) = nnn := by
  ext i h; simp only [opField, encodeNNN, BitVec.getElem_extractLsb', BitVec.getLsbD_append]; grind

@[simp] theorem opField_group_XKK (p : BitVec 4) (x : Reg) (kk : Byte) : opField 12 4 (encodeXKK p x kk) = p := by
  ext i h; simp only [opField, encodeXKK, BitVec.getElem_extractLsb', BitVec.getLsbD_append]; grind

@[simp] theorem opField_x_XKK (p : BitVec 4) (x : Reg) (kk : Byte) : opField 8 4 (encodeXKK p x kk) = x := by
  ext i h; simp only [opField, encodeXKK, BitVec.getElem_extractLsb', BitVec.getLsbD_append]; grind

@[simp] theorem opField_kk_XKK (p : BitVec 4) (x : Reg) (kk : Byte) : opField 0 8 (encodeXKK p x kk) = kk := by
  ext i h; simp only [opField, encodeXKK, BitVec.getElem_extractLsb', BitVec.getLsbD_append]; grind

@[simp] theorem opField_group_XYN (p : BitVec 4) (x y : Reg) (n : BitVec 4) : opField 12 4 (encodeXYN p x y n) = p := by
  ext i h; simp only [opField, encodeXYN, BitVec.getElem_extractLsb', BitVec.getLsbD_append]; grind

@[simp] theorem opField_x_XYN (p : BitVec 4) (x y : Reg) (n : BitVec 4) : opField 8 4 (encodeXYN p x y n) = x := by
  ext i h; simp only [opField, encodeXYN, BitVec.getElem_extractLsb', BitVec.getLsbD_append]; grind

@[simp] theorem opField_y_XYN (p : BitVec 4) (x y : Reg) (n : BitVec 4) : opField 4 4 (encodeXYN p x y n) = y := by
  ext i h; simp only [opField, encodeXYN, BitVec.getElem_extractLsb', BitVec.getLsbD_append]; grind

@[simp] theorem opField_n_XYN (p : BitVec 4) (x y : Reg) (n : BitVec 4) : opField 0 4 (encodeXYN p x y n) = n := by
  ext i h; simp only [opField, encodeXYN, BitVec.getElem_extractLsb', BitVec.getLsbD_append]; grind

end Sys2Proof
end

