-- ==== Sys2Proof/Laws/State.lean ====
section
/-! SUPPORT. What each named update of the state leaves in each field: one lemma per field per update, true by `rfl`, so that no
later proof unfolds a record update. -/

namespace Sys2Proof.Machine

/-! ### `State.setV` -/

@[simp] theorem State.setV_v (s : State) (x : Reg) (b : Byte) : (s.setV x b).v = s.v.set x.toNat b x.isLt := rfl
@[simp] theorem State.setV_i (s : State) (x : Reg) (b : Byte) : (s.setV x b).i = s.i := rfl
@[simp] theorem State.setV_pc (s : State) (x : Reg) (b : Byte) : (s.setV x b).pc = s.pc := rfl
@[simp] theorem State.setV_sp (s : State) (x : Reg) (b : Byte) : (s.setV x b).sp = s.sp := rfl
@[simp] theorem State.setV_stack (s : State) (x : Reg) (b : Byte) : (s.setV x b).stack = s.stack := rfl
@[simp] theorem State.setV_dt (s : State) (x : Reg) (b : Byte) : (s.setV x b).dt = s.dt := rfl
@[simp] theorem State.setV_st (s : State) (x : Reg) (b : Byte) : (s.setV x b).st = s.st := rfl
@[simp] theorem State.setV_wait (s : State) (x : Reg) (b : Byte) : (s.setV x b).wait = s.wait := rfl
@[simp] theorem State.setV_keys (s : State) (x : Reg) (b : Byte) : (s.setV x b).keys = s.keys := rfl
@[simp] theorem State.setV_fb (s : State) (x : Reg) (b : Byte) : (s.setV x b).fb = s.fb := rfl
@[simp] theorem State.setV_mem (s : State) (x : Reg) (b : Byte) : (s.setV x b).mem = s.mem := rfl
@[simp] theorem State.setV_params (s : State) (x : Reg) (b : Byte) : (s.setV x b).params = s.params := rfl
@[simp] theorem State.setV_schedule (s : State) (x : Reg) (b : Byte) : (s.setV x b).schedule = s.schedule := rfl
@[simp] theorem State.setV_stepCount (s : State) (x : Reg) (b : Byte) : (s.setV x b).stepCount = s.stepCount := rfl

/-! ### `State.setVs` -/

@[simp] theorem State.setVs_v (s : State) (bs : List Byte) : (s.setVs bs).v = setRegs s.v 0 bs := rfl
@[simp] theorem State.setVs_i (s : State) (bs : List Byte) : (s.setVs bs).i = s.i := rfl
@[simp] theorem State.setVs_pc (s : State) (bs : List Byte) : (s.setVs bs).pc = s.pc := rfl
@[simp] theorem State.setVs_sp (s : State) (bs : List Byte) : (s.setVs bs).sp = s.sp := rfl
@[simp] theorem State.setVs_stack (s : State) (bs : List Byte) : (s.setVs bs).stack = s.stack := rfl
@[simp] theorem State.setVs_dt (s : State) (bs : List Byte) : (s.setVs bs).dt = s.dt := rfl
@[simp] theorem State.setVs_st (s : State) (bs : List Byte) : (s.setVs bs).st = s.st := rfl
@[simp] theorem State.setVs_wait (s : State) (bs : List Byte) : (s.setVs bs).wait = s.wait := rfl
@[simp] theorem State.setVs_keys (s : State) (bs : List Byte) : (s.setVs bs).keys = s.keys := rfl
@[simp] theorem State.setVs_fb (s : State) (bs : List Byte) : (s.setVs bs).fb = s.fb := rfl
@[simp] theorem State.setVs_mem (s : State) (bs : List Byte) : (s.setVs bs).mem = s.mem := rfl
@[simp] theorem State.setVs_params (s : State) (bs : List Byte) : (s.setVs bs).params = s.params := rfl
@[simp] theorem State.setVs_schedule (s : State) (bs : List Byte) : (s.setVs bs).schedule = s.schedule := rfl
@[simp] theorem State.setVs_stepCount (s : State) (bs : List Byte) : (s.setVs bs).stepCount = s.stepCount := rfl

/-! ### `State.finish` -/

@[simp] theorem State.finish_v (s : State) (o : Flow) : (s.finish o).v = s.v := rfl
@[simp] theorem State.finish_i (s : State) (o : Flow) : (s.finish o).i = s.i := rfl
@[simp] theorem State.finish_pc (s : State) (o : Flow) : (s.finish o).pc = o.apply s.pc := rfl
@[simp] theorem State.finish_sp (s : State) (o : Flow) : (s.finish o).sp = s.sp := rfl
@[simp] theorem State.finish_stack (s : State) (o : Flow) : (s.finish o).stack = s.stack := rfl
@[simp] theorem State.finish_dt (s : State) (o : Flow) : (s.finish o).dt = s.dt := rfl
@[simp] theorem State.finish_st (s : State) (o : Flow) : (s.finish o).st = s.st := rfl
@[simp] theorem State.finish_wait (s : State) (o : Flow) : (s.finish o).wait = s.wait := rfl
@[simp] theorem State.finish_keys (s : State) (o : Flow) : (s.finish o).keys = s.keys := rfl
@[simp] theorem State.finish_fb (s : State) (o : Flow) : (s.finish o).fb = s.fb := rfl
@[simp] theorem State.finish_mem (s : State) (o : Flow) : (s.finish o).mem = s.mem := rfl
@[simp] theorem State.finish_params (s : State) (o : Flow) : (s.finish o).params = s.params := rfl
@[simp] theorem State.finish_schedule (s : State) (o : Flow) : (s.finish o).schedule = s.schedule := rfl
@[simp] theorem State.finish_stepCount (s : State) (o : Flow) : (s.finish o).stepCount = s.stepCount := rfl

/-! ### `State.writeByte` -/

@[simp] theorem State.writeByte_v (s : State) (a : Nat) (b : Byte) : (s.writeByte a b).v = s.v := rfl
@[simp] theorem State.writeByte_i (s : State) (a : Nat) (b : Byte) : (s.writeByte a b).i = s.i := rfl
@[simp] theorem State.writeByte_pc (s : State) (a : Nat) (b : Byte) : (s.writeByte a b).pc = s.pc := rfl
@[simp] theorem State.writeByte_sp (s : State) (a : Nat) (b : Byte) : (s.writeByte a b).sp = s.sp := rfl
@[simp] theorem State.writeByte_stack (s : State) (a : Nat) (b : Byte) : (s.writeByte a b).stack = s.stack := rfl
@[simp] theorem State.writeByte_dt (s : State) (a : Nat) (b : Byte) : (s.writeByte a b).dt = s.dt := rfl
@[simp] theorem State.writeByte_st (s : State) (a : Nat) (b : Byte) : (s.writeByte a b).st = s.st := rfl
@[simp] theorem State.writeByte_wait (s : State) (a : Nat) (b : Byte) : (s.writeByte a b).wait = s.wait := rfl
@[simp] theorem State.writeByte_keys (s : State) (a : Nat) (b : Byte) : (s.writeByte a b).keys = s.keys := rfl
@[simp] theorem State.writeByte_fb (s : State) (a : Nat) (b : Byte) : (s.writeByte a b).fb = s.fb := rfl
@[simp] theorem State.writeByte_mem (s : State) (a : Nat) (b : Byte) : (s.writeByte a b).mem = Memory.write s.params.font s.mem a b := rfl
@[simp] theorem State.writeByte_params (s : State) (a : Nat) (b : Byte) : (s.writeByte a b).params = s.params := rfl
@[simp] theorem State.writeByte_schedule (s : State) (a : Nat) (b : Byte) : (s.writeByte a b).schedule = s.schedule := rfl
@[simp] theorem State.writeByte_stepCount (s : State) (a : Nat) (b : Byte) : (s.writeByte a b).stepCount = s.stepCount := rfl

/-! ### `State.tick` -/

@[simp] theorem State.tick_v (s : State) : (s.tick).v = s.v := rfl
@[simp] theorem State.tick_i (s : State) : (s.tick).i = s.i := rfl
@[simp] theorem State.tick_pc (s : State) : (s.tick).pc = s.pc := rfl
@[simp] theorem State.tick_sp (s : State) : (s.tick).sp = s.sp := rfl
@[simp] theorem State.tick_stack (s : State) : (s.tick).stack = s.stack := rfl
@[simp] theorem State.tick_dt (s : State) : (s.tick).dt = countDown s.dt := rfl
@[simp] theorem State.tick_st (s : State) : (s.tick).st = countDown s.st := rfl
@[simp] theorem State.tick_wait (s : State) : (s.tick).wait = s.wait := rfl
@[simp] theorem State.tick_keys (s : State) : (s.tick).keys = s.keys := rfl
@[simp] theorem State.tick_fb (s : State) : (s.tick).fb = s.fb := rfl
@[simp] theorem State.tick_mem (s : State) : (s.tick).mem = s.mem := rfl
@[simp] theorem State.tick_params (s : State) : (s.tick).params = s.params := rfl
@[simp] theorem State.tick_schedule (s : State) : (s.tick).schedule = s.schedule := rfl
@[simp] theorem State.tick_stepCount (s : State) : (s.tick).stepCount = s.stepCount := rfl

/-! ### `State.keyUp` -/

@[simp] theorem State.keyUp_v (s : State) (k : Key) : (s.keyUp k).v = s.v := rfl
@[simp] theorem State.keyUp_i (s : State) (k : Key) : (s.keyUp k).i = s.i := rfl
@[simp] theorem State.keyUp_pc (s : State) (k : Key) : (s.keyUp k).pc = s.pc := rfl
@[simp] theorem State.keyUp_sp (s : State) (k : Key) : (s.keyUp k).sp = s.sp := rfl
@[simp] theorem State.keyUp_stack (s : State) (k : Key) : (s.keyUp k).stack = s.stack := rfl
@[simp] theorem State.keyUp_dt (s : State) (k : Key) : (s.keyUp k).dt = s.dt := rfl
@[simp] theorem State.keyUp_st (s : State) (k : Key) : (s.keyUp k).st = s.st := rfl
@[simp] theorem State.keyUp_wait (s : State) (k : Key) : (s.keyUp k).wait = s.wait := rfl
@[simp] theorem State.keyUp_keys (s : State) (k : Key) : (s.keyUp k).keys = s.keys &&& ~~~(1#16 <<< k.toNat) := rfl
@[simp] theorem State.keyUp_fb (s : State) (k : Key) : (s.keyUp k).fb = s.fb := rfl
@[simp] theorem State.keyUp_mem (s : State) (k : Key) : (s.keyUp k).mem = s.mem := rfl
@[simp] theorem State.keyUp_params (s : State) (k : Key) : (s.keyUp k).params = s.params := rfl
@[simp] theorem State.keyUp_schedule (s : State) (k : Key) : (s.keyUp k).schedule = s.schedule := rfl
@[simp] theorem State.keyUp_stepCount (s : State) (k : Key) : (s.keyUp k).stepCount = s.stepCount := rfl

/-! ### `State.dropEvent` -/

@[simp] theorem State.dropEvent_v (s : State) : (s.dropEvent).v = s.v := rfl
@[simp] theorem State.dropEvent_i (s : State) : (s.dropEvent).i = s.i := rfl
@[simp] theorem State.dropEvent_pc (s : State) : (s.dropEvent).pc = s.pc := rfl
@[simp] theorem State.dropEvent_sp (s : State) : (s.dropEvent).sp = s.sp := rfl
@[simp] theorem State.dropEvent_stack (s : State) : (s.dropEvent).stack = s.stack := rfl
@[simp] theorem State.dropEvent_dt (s : State) : (s.dropEvent).dt = s.dt := rfl
@[simp] theorem State.dropEvent_st (s : State) : (s.dropEvent).st = s.st := rfl
@[simp] theorem State.dropEvent_wait (s : State) : (s.dropEvent).wait = s.wait := rfl
@[simp] theorem State.dropEvent_keys (s : State) : (s.dropEvent).keys = s.keys := rfl
@[simp] theorem State.dropEvent_fb (s : State) : (s.dropEvent).fb = s.fb := rfl
@[simp] theorem State.dropEvent_mem (s : State) : (s.dropEvent).mem = s.mem := rfl
@[simp] theorem State.dropEvent_params (s : State) : (s.dropEvent).params = s.params := rfl
@[simp] theorem State.dropEvent_schedule (s : State) : (s.dropEvent).schedule = s.schedule.tail := rfl
@[simp] theorem State.dropEvent_stepCount (s : State) : (s.dropEvent).stepCount = s.stepCount := rfl

/-! ### `State.retireStep` -/

@[simp] theorem State.retireStep_v (s : State) : (s.retireStep).v = s.v := rfl
@[simp] theorem State.retireStep_i (s : State) : (s.retireStep).i = s.i := rfl
@[simp] theorem State.retireStep_pc (s : State) : (s.retireStep).pc = s.pc := rfl
@[simp] theorem State.retireStep_sp (s : State) : (s.retireStep).sp = s.sp := rfl
@[simp] theorem State.retireStep_stack (s : State) : (s.retireStep).stack = s.stack := rfl
@[simp] theorem State.retireStep_dt (s : State) : (s.retireStep).dt = s.dt := rfl
@[simp] theorem State.retireStep_st (s : State) : (s.retireStep).st = s.st := rfl
@[simp] theorem State.retireStep_wait (s : State) : (s.retireStep).wait = s.wait := rfl
@[simp] theorem State.retireStep_keys (s : State) : (s.retireStep).keys = s.keys := rfl
@[simp] theorem State.retireStep_fb (s : State) : (s.retireStep).fb = s.fb := rfl
@[simp] theorem State.retireStep_mem (s : State) : (s.retireStep).mem = s.mem := rfl
@[simp] theorem State.retireStep_params (s : State) : (s.retireStep).params = s.params := rfl
@[simp] theorem State.retireStep_schedule (s : State) : (s.retireStep).schedule = s.schedule.tail := rfl
@[simp] theorem State.retireStep_stepCount (s : State) : (s.retireStep).stepCount = s.stepCount + 1 := rfl

/-! ### `State.powerOn` -/

@[simp] theorem State.powerOn_v (s : State) : (s.powerOn).v = State.reset.v := rfl
@[simp] theorem State.powerOn_i (s : State) : (s.powerOn).i = State.reset.i := rfl
@[simp] theorem State.powerOn_pc (s : State) : (s.powerOn).pc = State.reset.pc := rfl
@[simp] theorem State.powerOn_sp (s : State) : (s.powerOn).sp = State.reset.sp := rfl
@[simp] theorem State.powerOn_stack (s : State) : (s.powerOn).stack = State.reset.stack := rfl
@[simp] theorem State.powerOn_dt (s : State) : (s.powerOn).dt = State.reset.dt := rfl
@[simp] theorem State.powerOn_st (s : State) : (s.powerOn).st = State.reset.st := rfl
@[simp] theorem State.powerOn_wait (s : State) : (s.powerOn).wait = State.reset.wait := rfl
@[simp] theorem State.powerOn_keys (s : State) : (s.powerOn).keys = State.reset.keys := rfl
@[simp] theorem State.powerOn_fb (s : State) : (s.powerOn).fb = State.reset.fb := rfl
@[simp] theorem State.powerOn_mem (s : State) : (s.powerOn).mem = State.reset.mem := rfl
@[simp] theorem State.powerOn_params (s : State) : (s.powerOn).params = s.params := rfl
@[simp] theorem State.powerOn_schedule (s : State) : (s.powerOn).schedule = s.schedule := rfl
@[simp] theorem State.powerOn_stepCount (s : State) : (s.powerOn).stepCount = s.stepCount := rfl

/-! ### `State.writeRF`: only the register file changes -/

@[simp] theorem State.writeRF_i (s : State) (x : Reg) (r g : Byte) : (s.writeRF x r g).i = s.i := by
  unfold State.writeRF; split <;> rfl
@[simp] theorem State.writeRF_pc (s : State) (x : Reg) (r g : Byte) : (s.writeRF x r g).pc = s.pc := by
  unfold State.writeRF; split <;> rfl
@[simp] theorem State.writeRF_sp (s : State) (x : Reg) (r g : Byte) : (s.writeRF x r g).sp = s.sp := by
  unfold State.writeRF; split <;> rfl
@[simp] theorem State.writeRF_stack (s : State) (x : Reg) (r g : Byte) : (s.writeRF x r g).stack = s.stack := by
  unfold State.writeRF; split <;> rfl
@[simp] theorem State.writeRF_dt (s : State) (x : Reg) (r g : Byte) : (s.writeRF x r g).dt = s.dt := by
  unfold State.writeRF; split <;> rfl
@[simp] theorem State.writeRF_st (s : State) (x : Reg) (r g : Byte) : (s.writeRF x r g).st = s.st := by
  unfold State.writeRF; split <;> rfl
@[simp] theorem State.writeRF_wait (s : State) (x : Reg) (r g : Byte) : (s.writeRF x r g).wait = s.wait := by
  unfold State.writeRF; split <;> rfl
@[simp] theorem State.writeRF_keys (s : State) (x : Reg) (r g : Byte) : (s.writeRF x r g).keys = s.keys := by
  unfold State.writeRF; split <;> rfl
@[simp] theorem State.writeRF_fb (s : State) (x : Reg) (r g : Byte) : (s.writeRF x r g).fb = s.fb := by
  unfold State.writeRF; split <;> rfl
@[simp] theorem State.writeRF_mem (s : State) (x : Reg) (r g : Byte) : (s.writeRF x r g).mem = s.mem := by
  unfold State.writeRF; split <;> rfl
@[simp] theorem State.writeRF_params (s : State) (x : Reg) (r g : Byte) : (s.writeRF x r g).params = s.params := by
  unfold State.writeRF; split <;> rfl
@[simp] theorem State.writeRF_schedule (s : State) (x : Reg) (r g : Byte) : (s.writeRF x r g).schedule = s.schedule := by
  unfold State.writeRF; split <;> rfl
@[simp] theorem State.writeRF_stepCount (s : State) (x : Reg) (r g : Byte) : (s.writeRF x r g).stepCount = s.stepCount := by
  unfold State.writeRF; split <;> rfl

/-! ### `State.writeBytes`: only the memory changes -/

@[simp] theorem State.writeBytes_v (s : State) (cs : List (Nat × Byte)) : (s.writeBytes cs).v = s.v := by
  induction cs generalizing s with
  | nil => rfl
  | cons c cs ih => exact ih (s.writeByte c.1 c.2)
@[simp] theorem State.writeBytes_i (s : State) (cs : List (Nat × Byte)) : (s.writeBytes cs).i = s.i := by
  induction cs generalizing s with
  | nil => rfl
  | cons c cs ih => exact ih (s.writeByte c.1 c.2)
@[simp] theorem State.writeBytes_pc (s : State) (cs : List (Nat × Byte)) : (s.writeBytes cs).pc = s.pc := by
  induction cs generalizing s with
  | nil => rfl
  | cons c cs ih => exact ih (s.writeByte c.1 c.2)
@[simp] theorem State.writeBytes_sp (s : State) (cs : List (Nat × Byte)) : (s.writeBytes cs).sp = s.sp := by
  induction cs generalizing s with
  | nil => rfl
  | cons c cs ih => exact ih (s.writeByte c.1 c.2)
@[simp] theorem State.writeBytes_stack (s : State) (cs : List (Nat × Byte)) : (s.writeBytes cs).stack = s.stack := by
  induction cs generalizing s with
  | nil => rfl
  | cons c cs ih => exact ih (s.writeByte c.1 c.2)
@[simp] theorem State.writeBytes_dt (s : State) (cs : List (Nat × Byte)) : (s.writeBytes cs).dt = s.dt := by
  induction cs generalizing s with
  | nil => rfl
  | cons c cs ih => exact ih (s.writeByte c.1 c.2)
@[simp] theorem State.writeBytes_st (s : State) (cs : List (Nat × Byte)) : (s.writeBytes cs).st = s.st := by
  induction cs generalizing s with
  | nil => rfl
  | cons c cs ih => exact ih (s.writeByte c.1 c.2)
@[simp] theorem State.writeBytes_wait (s : State) (cs : List (Nat × Byte)) : (s.writeBytes cs).wait = s.wait := by
  induction cs generalizing s with
  | nil => rfl
  | cons c cs ih => exact ih (s.writeByte c.1 c.2)
@[simp] theorem State.writeBytes_keys (s : State) (cs : List (Nat × Byte)) : (s.writeBytes cs).keys = s.keys := by
  induction cs generalizing s with
  | nil => rfl
  | cons c cs ih => exact ih (s.writeByte c.1 c.2)
@[simp] theorem State.writeBytes_fb (s : State) (cs : List (Nat × Byte)) : (s.writeBytes cs).fb = s.fb := by
  induction cs generalizing s with
  | nil => rfl
  | cons c cs ih => exact ih (s.writeByte c.1 c.2)
@[simp] theorem State.writeBytes_params (s : State) (cs : List (Nat × Byte)) : (s.writeBytes cs).params = s.params := by
  induction cs generalizing s with
  | nil => rfl
  | cons c cs ih => exact ih (s.writeByte c.1 c.2)
@[simp] theorem State.writeBytes_schedule (s : State) (cs : List (Nat × Byte)) : (s.writeBytes cs).schedule = s.schedule := by
  induction cs generalizing s with
  | nil => rfl
  | cons c cs ih => exact ih (s.writeByte c.1 c.2)
@[simp] theorem State.writeBytes_stepCount (s : State) (cs : List (Nat × Byte)) : (s.writeBytes cs).stepCount = s.stepCount := by
  induction cs generalizing s with
  | nil => rfl
  | cons c cs ih => exact ih (s.writeByte c.1 c.2)

/-! ### `State.keyDown`: the key mask, and what an outstanding wait awaits -/

@[simp] theorem State.keyDown_i (s : State) (k : Key) : (s.keyDown k).i = s.i := by
  unfold State.keyDown State.resolveWait; cases s.wait <;> rfl
@[simp] theorem State.keyDown_pc (s : State) (k : Key) : (s.keyDown k).pc = s.pc := by
  unfold State.keyDown State.resolveWait; cases s.wait <;> rfl
@[simp] theorem State.keyDown_sp (s : State) (k : Key) : (s.keyDown k).sp = s.sp := by
  unfold State.keyDown State.resolveWait; cases s.wait <;> rfl
@[simp] theorem State.keyDown_stack (s : State) (k : Key) : (s.keyDown k).stack = s.stack := by
  unfold State.keyDown State.resolveWait; cases s.wait <;> rfl
@[simp] theorem State.keyDown_dt (s : State) (k : Key) : (s.keyDown k).dt = s.dt := by
  unfold State.keyDown State.resolveWait; cases s.wait <;> rfl
@[simp] theorem State.keyDown_st (s : State) (k : Key) : (s.keyDown k).st = s.st := by
  unfold State.keyDown State.resolveWait; cases s.wait <;> rfl
@[simp] theorem State.keyDown_fb (s : State) (k : Key) : (s.keyDown k).fb = s.fb := by
  unfold State.keyDown State.resolveWait; cases s.wait <;> rfl
@[simp] theorem State.keyDown_mem (s : State) (k : Key) : (s.keyDown k).mem = s.mem := by
  unfold State.keyDown State.resolveWait; cases s.wait <;> rfl
@[simp] theorem State.keyDown_params (s : State) (k : Key) : (s.keyDown k).params = s.params := by
  unfold State.keyDown State.resolveWait; cases s.wait <;> rfl
@[simp] theorem State.keyDown_schedule (s : State) (k : Key) : (s.keyDown k).schedule = s.schedule := by
  unfold State.keyDown State.resolveWait; cases s.wait <;> rfl
@[simp] theorem State.keyDown_stepCount (s : State) (k : Key) : (s.keyDown k).stepCount = s.stepCount := by
  unfold State.keyDown State.resolveWait; cases s.wait <;> rfl
@[simp] theorem State.keyDown_keys (s : State) (k : Key) : (s.keyDown k).keys = s.keys ||| (1#16 <<< k.toNat) := by
  unfold State.keyDown State.resolveWait; cases s.wait <;> rfl
@[simp] theorem State.keyDown_wait (s : State) (k : Key) : (s.keyDown k).wait = .running := by
  unfold State.keyDown State.resolveWait; cases s.wait <;> rfl

end Sys2Proof.Machine
end

