-- ==== Sys2Proof/Laws/Display.lean ====
section
/-! SUPPORT. The framebuffer: what a toggle and a clear do to each pixel, and which coordinates a sprite's bits land on. -/

namespace Sys2Proof.Machine

@[simp] theorem Framebuffer.pixel_toggle (fb : Framebuffer) (c c' : Fin 64) (r r' : Fin 32) :
    (fb.toggle c r).pixel c' r' = (fb.pixel c' r' ^^ decide (c' = c ∧ r' = r)) := by
  simp only [Framebuffer.pixel, Framebuffer.toggle, Fin.getElem_fin, Vector.getElem_set]
  by_cases hr : r = r'
  · subst hr
    simp only [if_true, BitVec.getLsbD_xor, and_true]
    congr 1
    by_cases hc : c' = c
    · subst hc; simp
    · have : c'.val ≠ c.val := fun e => hc (Fin.ext e)
      simp [hc]; omega
  · have h1 : r.val ≠ r'.val := fun e => hr (Fin.ext e)
    have h2 : ¬ r' = r := fun e => hr e.symm
    simp [h1, h2]

@[simp] theorem Framebuffer.pixel_clear (c : Fin 64) (r : Fin 32) : Framebuffer.clear.pixel c r = false := by
  simp [Framebuffer.pixel, Framebuffer.clear]

/-- Two framebuffers with the same pixels are one. -/
theorem Framebuffer.ext_pixel {fb gb : Framebuffer} (h : ∀ c r, fb.pixel c r = gb.pixel c r) : fb = gb := by
  ext r hr c hc
  have := h ⟨c, hc⟩ ⟨r, hr⟩
  simp only [Framebuffer.pixel, Fin.getElem_fin] at this
  simpa [BitVec.getLsbD_eq_getElem hc] using this

@[simp] theorem spriteColumn_val (vx : Byte) (col : Nat) : (spriteColumn vx col).val = (vx.toNat + col) % 64 := rfl

@[simp] theorem spriteRow_val (vy : Byte) (row : Nat) : (spriteRow vy row).val = (vy.toNat + row) % 32 := rfl

/-! ### A sprite's rows -/

/-- The truth of a statement as a Bool, for statements no instance decides. -/
noncomputable def truth (P : Prop) : Bool := @decide P (Classical.propDecidable P)
theorem truth_true {P : Prop} (h : P) : truth P = true := by simp [truth, h]
theorem truth_false {P : Prop} (h : ¬P) : truth P = false := by simp [truth, h]
theorem truth_congr {P Q : Prop} (h : P ↔ Q) : truth P = truth Q := by simp [truth, h]
theorem truth_eq_true {P : Prop} : (truth P = true) = P := by simp [truth]
theorem truth_or {P Q : Prop} : truth (P ∨ Q) = (truth P || truth Q) := by by_cases hp : P <;> by_cases hq : Q <;> simp [truth, hp, hq]
/-- Everything one row of sprite bits does: each 1 bit toggles its pixel, and the collision records whether one of them was set. -/
theorem drawBits_spec (vx vy b : Byte) (row : Nat) (L : List Nat) (hn : L.Nodup) (hl : ∀ col ∈ L, col < 8) (cv : Canvas) :
    (∀ c r, (L.foldl (drawBit vx vy b row) cv).fb.pixel c r = (cv.fb.pixel c r ^^ truth (∃ col ∈ L, b.getLsbD (7 - col) = true ∧ c = spriteColumn vx col ∧ r = spriteRow vy row))) ∧
    (L.foldl (drawBit vx vy b row) cv).collision = (cv.collision ||
      truth (∃ col ∈ L, b.getLsbD (7 - col) = true ∧ cv.fb.pixel (spriteColumn vx col) (spriteRow vy row) = true)) := by
  induction L generalizing cv with
  | nil => simp [truth]
  | cons a L ih =>
    simp only [List.nodup_cons] at hn
    obtain ⟨h1, h2⟩ := ih hn.2 (fun c hc => hl c (by simp [hc])) (drawBit vx vy b row cv a)
    have hne : ∀ col ∈ L, spriteColumn vx col ≠ spriteColumn vx a := by
      intro col hc he
      have h3 := hl col (by simp [hc]); have h4 := hl a (by simp)
      have := congrArg Fin.val he; simp at this
      have : col = a := by omega
      subst this; exact hn.1 hc
    simp only [List.foldl_cons]
    refine ⟨fun c r => ?_, ?_⟩
    · rw [h1]
      unfold drawBit
      by_cases hb : b.getLsbD (7 - a) = true
      · simp only [hb, if_true, Framebuffer.pixel_toggle, Bool.xor_assoc]
        congr 1
        by_cases hc : c = spriteColumn vx a ∧ r = spriteRow vy row
        · have : ¬ ∃ col ∈ L, b.getLsbD (7 - col) = true ∧ c = spriteColumn vx col ∧ r = spriteRow vy row := by
            rintro ⟨col, h5, -, h6, -⟩; exact hne col h5 (h6.symm.trans hc.1)
          rw [truth_false this, Bool.xor_false, decide_eq_true hc]; symm; apply truth_true; exact ⟨a, by simp, hb, hc⟩
        · simp [hb, hc]
      · simp [hb]
    · rw [h2]
      unfold drawBit
      by_cases hb : b.getLsbD (7 - a) = true
      · simp only [hb, if_true, Framebuffer.pixel_toggle]
        have : (∃ col ∈ L, b.getLsbD (7 - col) = true ∧ (cv.fb.pixel (spriteColumn vx col) (spriteRow vy row) ^^ decide (spriteColumn vx col = spriteColumn vx a ∧ True)) = true) ↔ (∃ col ∈ L, b.getLsbD (7 - col) = true ∧ (cv.fb.pixel (spriteColumn vx col) (spriteRow vy row)) = true) := by
          constructor <;> rintro ⟨col, h5, h6, h7⟩ <;> refine ⟨col, h5, h6, ?_⟩ <;> simpa [hne col h5] using h7
        rw [truth_congr this, Bool.or_assoc]; congr 1
        have h9 : (∃ col ∈ a :: L, b.getLsbD (7 - col) = true ∧ (cv.fb.pixel (spriteColumn vx col) (spriteRow vy row)) = true) ↔ (cv.fb.pixel (spriteColumn vx a) (spriteRow vy row) = true ∨ ∃ col ∈ L, b.getLsbD (7 - col) = true ∧ (cv.fb.pixel (spriteColumn vx col) (spriteRow vy row)) = true) := by simp [hb]
        rw [truth_congr h9, truth_or]; congr 1; simp [truth]
      · simp [hb]

/-- Everything a sprite does (R502): a pixel is toggled when a 1 bit lands on it, and the collision records whether one of those was set. -/
theorem drawRows_spec (vx vy : Byte) (bs : List Byte) (row : Nat) (hr : row + bs.length ≤ 32) (cv : Canvas) :
    (∀ c r, (drawRows vx vy row bs cv).fb.pixel c r = (cv.fb.pixel c r ^^
      truth (∃ k < bs.length, ∃ col < 8, (bs.getD k 0).getLsbD (7 - col) = true ∧ c = spriteColumn vx col ∧ r = spriteRow vy (row + k)))) ∧
    (drawRows vx vy row bs cv).collision = (cv.collision ||
      truth (∃ k < bs.length, ∃ col < 8, (bs.getD k 0).getLsbD (7 - col) = true ∧ cv.fb.pixel (spriteColumn vx col) (spriteRow vy (row + k)) = true)) := by
  induction bs generalizing cv row with
  | nil => simp [drawRows, truth]
  | cons b bs ih =>
    simp only [List.length_cons] at hr
    obtain ⟨h1, h2⟩ := ih (row + 1) (by omega) (drawRow vx vy b row cv)
    obtain ⟨h3, h4⟩ := drawBits_spec vx vy b row [0,1,2,3,4,5,6,7] (by decide) (by decide) cv
    have hmem : ∀ P : Nat → Prop, (∃ col ∈ [0,1,2,3,4,5,6,7], P col) ↔ ∃ col < 8, P col := by
      intro P
      constructor
      · rintro ⟨col, h, hp⟩; exact ⟨col, by simp at h; omega, hp⟩
      · rintro ⟨col, h, hp⟩; exact ⟨col, by simp; omega, hp⟩
    have hne : ∀ k < bs.length, spriteRow vy (row + 1 + k) ≠ spriteRow vy row := by
      intro k hk he
      have := congrArg Fin.val he; simp at this; omega
    have hsplit : ∀ P : Nat → Byte → Prop, (∃ k < bs.length + 1, P (row + k) ((b :: bs).getD k 0)) ↔ P row b ∨ ∃ k < bs.length, P (row + 1 + k) (bs.getD k 0) := by
      intro P
      constructor
      · rintro ⟨k, hk, hp⟩
        cases k with
        | zero => left; simpa using hp
        | succ k => right; exact ⟨k, by omega, by rw [show row + 1 + k = row + (k+1) by omega]; simpa using hp⟩
      · rintro (hp | ⟨k, hk, hp⟩)
        · exact ⟨0, by omega, by simpa using hp⟩
        · exact ⟨k+1, by omega, by rw [show row + 1 + k = row + (k+1) by omega] at hp; simpa using hp⟩
    simp only [hmem] at h3 h4
    simp only [drawRows, List.length_cons]
    refine ⟨fun c r => ?_, ?_⟩
    · rw [h1]; simp only [drawRow, h3, Bool.xor_assoc]; congr 1
      simp only [hsplit (fun rw' b' => ∃ col < 8, b'.getLsbD (7 - col) = true ∧ c = spriteColumn vx col ∧ r = spriteRow vy rw')]
      by_cases hc : r = spriteRow vy row
      · have : ¬ ∃ k < bs.length, ∃ col < 8, (bs.getD k 0).getLsbD (7 - col) = true ∧ c = spriteColumn vx col ∧ r = spriteRow vy (row + 1 + k) := by
          rintro ⟨k, h5, col, -, -, -, h6⟩; exact hne k h5 (h6.symm.trans hc)
        rw [truth_false this, Bool.xor_false]; exact truth_congr ⟨Or.inl, fun h => h.resolve_right this⟩
      · have : ¬ (∃ col < 8, b.getLsbD (7 - col) = true ∧ c = spriteColumn vx col ∧ r = spriteRow vy row) := by rintro ⟨_, _, _, _, h⟩; exact hc h
        rw [truth_false this, Bool.false_xor]; exact truth_congr ⟨Or.inr, fun h => h.resolve_left this⟩
    · rw [h2]; simp only [drawRow, h4, Bool.or_assoc]; congr 1
      simp only [hsplit (fun rw' b' => ∃ col < 8, b'.getLsbD (7 - col) = true ∧ cv.fb.pixel (spriteColumn vx col) (spriteRow vy rw') = true)]
      rw [Bool.eq_iff_iff]; simp only [Bool.or_eq_true, truth_eq_true]; refine or_congr Iff.rfl ?_
      have aux : ∀ k < bs.length, ∀ c, (List.foldl (drawBit vx vy b row) cv [0, 1, 2, 3, 4, 5, 6, 7]).fb.pixel c (spriteRow vy (row + 1 + k)) = cv.fb.pixel c (spriteRow vy (row + 1 + k)) := by
        intro k hk c; rw [h3, truth_false, Bool.xor_false]; rintro ⟨_, _, _, _, h⟩; exact hne k hk h
      constructor <;> rintro ⟨k, h5, col, h6, h7, h8⟩ <;> refine ⟨k, h5, col, h6, h7, ?_⟩
      · rw [aux k h5] at h8; exact h8
      · rw [aux k h5]; exact h8

end Sys2Proof.Machine
end

