-- ==== Sys2Proof/Laws/Memory.lean ====
section
/-! SUPPORT. The memory: reads after writes, the canonical form, and what the address check and the byte sequences answer. -/

namespace Sys2Proof.Machine

/-! ### One cell -/

theorem Memory.read_insert (font : Font) (m : Memory) (a : Nat) (b : Byte) (k : Nat) :
    Memory.read font (Memory.insert a b m) k = if k = a then b else Memory.read font m k := by
  induction m with
  | nil => simp [Memory.insert, Memory.read]
  | cons c m ih =>
    obtain ⟨j, d⟩ := c
    simp only [Memory.insert]
    split
    · simp [Memory.read]
    · split
      · subst_vars; simp only [Memory.read]; split <;> simp_all
      · simp only [Memory.read, ih]; grind

/-- Below the first cell of a canonical memory every address reads as after reset. -/
theorem Memory.read_below {font : Font} {m : Memory} {lo : Nat} (h : Memory.wfFrom font lo m = true) {k : Nat} (hk : k < lo) :
    Memory.read font m k = resetByte font k := by
  induction m generalizing lo with
  | nil => rfl
  | cons c m ih =>
    obtain ⟨j, d⟩ := c
    simp only [Memory.wfFrom, Bool.and_eq_true, decide_eq_true_eq] at h
    simp only [Memory.read]
    rw [if_neg (by omega)]
    exact ih h.2 (by omega)

theorem Memory.read_remove {font : Font} {m : Memory} {lo : Nat} (h : Memory.wfFrom font lo m = true) (a k : Nat) :
    Memory.read font (Memory.remove a m) k = if k = a then resetByte font a else Memory.read font m k := by
  induction m generalizing lo with
  | nil => simp only [Memory.remove, Memory.read]; split <;> simp_all
  | cons c m ih =>
    obtain ⟨j, d⟩ := c
    simp only [Memory.wfFrom, Bool.and_eq_true, decide_eq_true_eq] at h
    simp only [Memory.remove]
    split
    · subst_vars
      simp only [Memory.read]
      split
      · subst_vars; exact Memory.read_below h.2 (by omega)
      · rfl
    · simp only [Memory.read, ih h.2]; grind

theorem Memory.wfFrom_mono {font : Font} {m : Memory} {lo lo' : Nat} (h : Memory.wfFrom font lo m = true) (hl : lo' ≤ lo) :
    Memory.wfFrom font lo' m = true := by
  cases m with
  | nil => rfl
  | cons c m =>
    simp only [Memory.wfFrom, Bool.and_eq_true, decide_eq_true_eq] at h ⊢
    exact ⟨⟨⟨by omega, h.1.1.2⟩, h.1.2⟩, h.2⟩

theorem Memory.wfFrom_insert {font : Font} {m : Memory} {lo a : Nat} {b : Byte} (h : Memory.wfFrom font lo m = true)
    (hlo : lo ≤ a) (ha : a < 0x1000) (hb : b ≠ resetByte font a) : Memory.wfFrom font lo (Memory.insert a b m) = true := by
  induction m generalizing lo with
  | nil => simp [Memory.insert, Memory.wfFrom, hlo, ha, hb]
  | cons c m ih =>
    obtain ⟨j, d⟩ := c
    simp only [Memory.wfFrom, Bool.and_eq_true, decide_eq_true_eq, bne_iff_ne] at h
    simp only [Memory.insert]
    split
    · simp only [Memory.wfFrom, Bool.and_eq_true, decide_eq_true_eq, bne_iff_ne]
      exact ⟨⟨⟨hlo, ha⟩, hb⟩, ⟨⟨by omega, h.1.1.2⟩, h.1.2⟩, h.2⟩
    · split
      · subst_vars
        simp only [Memory.wfFrom, Bool.and_eq_true, decide_eq_true_eq, bne_iff_ne]
        exact ⟨⟨⟨hlo, ha⟩, hb⟩, h.2⟩
      · simp only [Memory.wfFrom, Bool.and_eq_true, decide_eq_true_eq, bne_iff_ne]
        exact ⟨h.1, ih h.2 (by omega)⟩

theorem Memory.wfFrom_remove {font : Font} {m : Memory} {lo : Nat} (h : Memory.wfFrom font lo m = true) (a : Nat) :
    Memory.wfFrom font lo (Memory.remove a m) = true := by
  induction m generalizing lo with
  | nil => rfl
  | cons c m ih =>
    obtain ⟨j, d⟩ := c
    simp only [Memory.wfFrom, Bool.and_eq_true, decide_eq_true_eq] at h
    simp only [Memory.remove]
    split
    · exact Memory.wfFrom_mono h.2 (by omega)
    · simp only [Memory.wfFrom, Bool.and_eq_true, decide_eq_true_eq]
      exact ⟨h.1, ih h.2⟩

/-- A write inside the address space keeps the canonical form. -/
theorem Memory.wf_write {font : Font} {m : Memory} {a : Nat} {b : Byte} (h : Memory.wf font m = true) (ha : a < 0x1000) :
    Memory.wf font (Memory.write font m a b) = true := by
  unfold Memory.write
  split
  · exact Memory.wfFrom_remove h a
  · exact Memory.wfFrom_insert h (Nat.zero_le a) ha ‹_›

/-- A read after a write gives the byte written, and a write leaves every other address alone. -/
theorem Memory.read_write {font : Font} {m : Memory} (h : Memory.wf font m = true) (a : Nat) (b : Byte) (k : Nat) :
    Memory.read font (Memory.write font m a b) k = if k = a then b else Memory.read font m k := by
  unfold Memory.write
  split
  · rename_i hb
    rw [Memory.read_remove h, hb]
  · exact Memory.read_insert font m a b k

/-! ### The state's memory -/

theorem State.memWf_writeByte {s : State} {a : Nat} {b : Byte} (h : s.memWf = true) (ha : a < 0x1000) :
    (s.writeByte a b).memWf = true := Memory.wf_write h ha

theorem State.readByte_writeByte {s : State} (h : s.memWf = true) (a : Nat) (b : Byte) (k : Nat) :
    (s.writeByte a b).readByte k = if k = a then b else s.readByte k := Memory.read_write h a b k

/-- Two states with one memory and one font read alike. -/
theorem State.readByte_congr {s t : State} (hm : t.mem = s.mem) (hp : t.params = s.params) (k : Nat) :
    t.readByte k = s.readByte k := by simp [State.readByte, hm, hp]

theorem State.memWf_congr {s t : State} (hm : t.mem = s.mem) (hp : t.params = s.params) : t.memWf = s.memWf := by
  simp [State.memWf, hm, hp]

theorem State.memWf_writeBytes {s : State} {cs : List (Nat × Byte)} (h : s.memWf = true) (hc : ∀ c ∈ cs, c.1 < 0x1000) :
    (s.writeBytes cs).memWf = true := by
  induction cs generalizing s with
  | nil => exact h
  | cons c cs ih =>
    exact ih (State.memWf_writeByte h (hc c (by simp))) fun d hd => hc d (by simp [hd])

/-- An address no cell of `cs` names reads as before. -/
theorem State.readByte_writeBytes_other {s : State} {cs : List (Nat × Byte)} (h : s.memWf = true)
    (hc : ∀ c ∈ cs, c.1 < 0x1000) {k : Nat} (hk : ∀ c ∈ cs, c.1 ≠ k) : (s.writeBytes cs).readByte k = s.readByte k := by
  induction cs generalizing s with
  | nil => rfl
  | cons c cs ih =>
    refine (ih (State.memWf_writeByte h (hc c (by simp))) (fun d hd => hc d (by simp [hd]))
      (fun d hd => hk d (by simp [hd]))).trans ?_
    rw [State.readByte_writeByte h, if_neg fun e => hk c (by simp) e.symm]

/-- An address that one cell of `cs` names, and only that one, reads as that cell's byte. -/
theorem State.readByte_writeBytes_same {s : State} {cs : List (Nat × Byte)} (h : s.memWf = true)
    (hc : ∀ c ∈ cs, c.1 < 0x1000) (hn : (cs.map Prod.fst).Nodup) {k : Nat} {b : Byte} (hk : (k, b) ∈ cs) :
    (s.writeBytes cs).readByte k = b := by
  induction cs generalizing s with
  | nil => simp at hk
  | cons c cs ih =>
    have hn' : (c.1 ∉ cs.map Prod.fst) ∧ (cs.map Prod.fst).Nodup := by simpa using hn
    have hw := State.memWf_writeByte (b := c.2) h (hc c (by simp))
    have hcs : ∀ d ∈ cs, d.1 < 0x1000 := fun d hd => hc d (by simp [hd])
    rcases List.mem_cons.mp hk with rfl | hmem
    · refine (State.readByte_writeBytes_other hw hcs ?_).trans ?_
      · intro d hd e
        exact hn'.1 (List.mem_map.mpr ⟨d, hd, e⟩)
      · rw [State.readByte_writeByte h, if_pos rfl]
    · exact ih hw hcs hn'.2 hmem

/-! ### The address check -/

theorem resolveAddr_lt {p : OobPolicy} {a k : Nat} (h : resolveAddr p a = .ok k) : k < 0x1000 ∧ k = a % 0x1000 := by
  unfold resolveAddr at h
  split at h
  · cases h; omega
  · cases p <;> simp at h; omega

/-- Where every address is accessible, the check answers them modulo 0x1000, in order. -/
theorem resolveRange_ok {p : OobPolicy} {base n : Nat} (h : p = .wrap ∨ ∀ k < n, base + k < 0x1000) :
    resolveRange p base n = .ok ((List.range' base n).map (· % 0x1000)) := by
  induction n generalizing base with
  | zero => rfl
  | succ n ih =>
    have ha : resolveAddr p base = .ok (base % 0x1000) := by
      unfold resolveAddr
      rcases h with rfl | h
      · split
        · congr 1; omega
        · rfl
      · have h0 := h 0 (by omega)
        rw [if_pos (by omega)]; congr 1; omega
    simp only [resolveRange, ha]
    rw [ih]
    · simp [List.range'_succ]
    · rcases h with rfl | h
      · exact .inl rfl
      · exact .inr fun k hk => by have := h (k + 1) (by omega); omega

/-- Under `Fault` the first address out of range is the one reported (R710). -/
theorem resolveRange_fault {base n : Nat} (hn : 0 < n) (h : 0x1000 < base + n) :
    resolveRange .fault base n = .error (.addressOutOfRange (BitVec.ofNat 16 (max base 0x1000))) := by
  induction n generalizing base with
  | zero => omega
  | succ n ih =>
    by_cases hb : base < 0x1000
    · simp only [resolveRange, resolveAddr, if_pos hb]
      rw [ih (by omega) (by omega)]
      have : max (base + 1) 0x1000 = max base 0x1000 := by omega
      simp only [this]
    · have : max base 0x1000 = base := by omega
      simp only [resolveRange, resolveAddr, if_neg hb, this]

/-- Everything a range check can do. -/
theorem resolveRange_cases (p : OobPolicy) (base n : Nat) :
    ((p = .wrap ∨ ∀ k < n, base + k < 0x1000) ∧
      resolveRange p base n = .ok ((List.range' base n).map (· % 0x1000))) ∨
    (p = .fault ∧ 0 < n ∧ 0x1000 < base + n ∧
      resolveRange p base n = .error (.addressOutOfRange (BitVec.ofNat 16 (max base 0x1000)))) := by
  cases p with
  | wrap => exact .inl ⟨.inl rfl, resolveRange_ok (.inl rfl)⟩
  | fault =>
    by_cases h : 0 < n ∧ 0x1000 < base + n
    · exact .inr ⟨rfl, h.1, h.2, resolveRange_fault h.1 h.2⟩
    · have h' : ∀ k < n, base + k < 0x1000 := fun k hk => by omega
      exact .inl ⟨.inr h', resolveRange_ok (.inr h')⟩

/-! ### Byte sequences -/

/-- What `loadBytes` answers where every address is accessible. -/
theorem State.loadBytes_ok {s : State} {base n : Nat} (h : s.params.oobPolicy = .wrap ∨ ∀ k < n, base + k < 0x1000) :
    s.loadBytes base n = .ok ((List.range' base n).map fun a => s.readByte (a % 0x1000)) := by
  simp [State.loadBytes, resolveRange_ok h, Function.comp_def]

/-- The cells that `storeBytes` writes. -/
def storedCells (base : Nat) (bs : List Byte) : List (Nat × Byte) :=
  ((List.range' base bs.length).map (· % 0x1000)).zip bs

/-- What `storeBytes` answers where every address is accessible. -/
theorem State.storeBytes_ok {s : State} {base : Nat} {bs : List Byte}
    (h : s.params.oobPolicy = .wrap ∨ ∀ k < bs.length, base + k < 0x1000) :
    s.storeBytes base bs = .ok (s.writeBytes (storedCells base bs)) := by
  simp [State.storeBytes, resolveRange_ok h, storedCells]

theorem storedCells_lt {base : Nat} {bs : List Byte} : ∀ c ∈ storedCells base bs, c.1 < 0x1000 := by
  intro c hc
  have := (List.of_mem_zip (a := c.1) (b := c.2) hc).1
  simp only [List.mem_map] at this
  obtain ⟨a, -, h⟩ := this
  omega

/-- A load's or a store's answer in full: it succeeds, or reports the first address out of range. -/
theorem State.storeBytes_cases (s : State) (base : Nat) (bs : List Byte) :
    s.storeBytes base bs = .ok (s.writeBytes (storedCells base bs)) ∨
    s.storeBytes base bs = .error (.addressOutOfRange (BitVec.ofNat 16 (max base 0x1000))) := by
  rcases resolveRange_cases s.params.oobPolicy base bs.length with ⟨h, -⟩ | ⟨-, -, -, h⟩
  · exact .inl (State.storeBytes_ok h)
  · exact .inr (by simp [State.storeBytes, h])

theorem State.loadBytes_cases (s : State) (base n : Nat) :
    s.loadBytes base n = .ok ((List.range' base n).map fun a => s.readByte (a % 0x1000)) ∨
    s.loadBytes base n = .error (.addressOutOfRange (BitVec.ofNat 16 (max base 0x1000))) := by
  rcases resolveRange_cases s.params.oobPolicy base n with ⟨h, -⟩ | ⟨-, -, -, h⟩
  · exact .inl (State.loadBytes_ok h)
  · exact .inr (by simp [State.loadBytes, h])

/-! ### What is read after a store -/

/-- The address check of an accessible range, at one of its addresses. -/
theorem resolveAddr_ok {p : OobPolicy} {base n : Nat} (h : p = .wrap ∨ ∀ k < n, base + k < 0x1000) {k : Nat} (hk : k < n) :
    resolveAddr p (base + k) = .ok ((base + k) % 0x1000) := by
  unfold resolveAddr
  rcases h with rfl | h
  · split
    · congr 1; omega
    · rfl
  · have := h k hk
    rw [if_pos this]; congr 1; omega

theorem mem_storedCells (base : Nat) (bs : List Byte) (k : Nat) (hk : k < bs.length) :
    ((base + k) % 0x1000, bs[k]) ∈ storedCells base bs := by
  have : (storedCells base bs)[k]? = some ((base + k) % 0x1000, bs[k]) := by
    simp [storedCells, List.getElem?_zip_eq_some]; simp [hk]
  exact List.mem_of_getElem? this

theorem of_mem_storedCells {base : Nat} {bs : List Byte} {c : Nat × Byte} (hc : c ∈ storedCells base bs) :
    ∃ k < bs.length, c.1 = (base + k) % 0x1000 := by
  have := (List.of_mem_zip (a := c.1) (b := c.2) hc).1
  simp [List.mem_range'_1] at this
  obtain ⟨a, ⟨h1, h2⟩, h3⟩ := this
  exact ⟨a - base, by omega, by rw [← h3]; congr 1; omega⟩

theorem nodup_storedCells (base : Nat) (bs : List Byte) (h : bs.length ≤ 16) : ((storedCells base bs).map Prod.fst).Nodup := by
  have e : (storedCells base bs).map Prod.fst = (List.range' base bs.length).map (· % 0x1000) := by
    simp [storedCells, List.map_fst_zip]
  rw [e]
  refine List.Nodup.map_on ?_ List.nodup_range'
  intro x hx y hy h
  simp [List.mem_range'_1] at hx hy; omega

/-- A byte of a store of at most 16 is read back at its address. -/
theorem State.readByte_stored {s : State} (hw : s.memWf = true) (base : Nat) (bs : List Byte) (hl : bs.length ≤ 16) (k : Nat)
    (hk : k < bs.length) : (s.writeBytes (storedCells base bs)).readByte ((base + k) % 0x1000) = bs[k] :=
  State.readByte_writeBytes_same hw storedCells_lt (nodup_storedCells base bs hl) (mem_storedCells base bs k hk)

/-- A store leaves every other address alone. -/
theorem State.readByte_not_stored {s : State} (hw : s.memWf = true) (base : Nat) (bs : List Byte) (a : Nat)
    (ha : ∀ k < bs.length, a ≠ (base + k) % 0x1000) : (s.writeBytes (storedCells base bs)).readByte a = s.readByte a :=
  State.readByte_writeBytes_other hw storedCells_lt (by
    intro c hc
    obtain ⟨k, hk, e⟩ := of_mem_storedCells hc
    rw [e]; exact (ha k hk).symm)

end Sys2Proof.Machine
end

