-- ==== Sys2Proof/Laws/Registers.lean ====
section
/-! SUPPORT. General registers: reads after writes, the register sequences of Fx55 and Fx65, and `WriteRF`. -/

namespace Sys2Proof.Machine

@[simp] theorem State.getV_setV (s : State) (x y : Reg) (b : Byte) :
    (s.setV x b).getV y = if y = x then b else s.getV y := by
  simp only [State.getV, State.setV_v, Vector.getElem_set]
  by_cases h : y = x
  · simp [h]
  · have : x.toNat ≠ y.toNat := fun e => h (BitVec.eq_of_toNat_eq e.symm)
    simp [h, this]

/-- A register is read from the register file alone. -/
theorem State.getV_congr {s t : State} (h : t.v = s.v) (x : Reg) : t.getV x = s.getV x := by simp [State.getV, h]

@[simp] theorem State.getV_finish (s : State) (o : Flow) (x : Reg) : (s.finish o).getV x = s.getV x := rfl

/-- `WriteRF` writes `V[x]` and `V[15]`, and for `x = 15` the write `VF_ORDER` puts last is the one that stays (R461). -/
theorem State.getV_writeRF (s : State) (x : Reg) (r g : Byte) (y : Reg) :
    (s.writeRF x r g).getV y =
      if y = VF then (if x = VF ∧ s.params.vfOrder = .resultLast then r else g)
      else if y = x then r else s.getV y := by
  unfold State.writeRF
  cases s.params.vfOrder <;> simp only [State.getV_setV] <;> grind

theorem setRegs_getElem (v : Vector Byte 16) (k : Nat) (bs : List Byte) (j : Nat) (hj : j < 16) :
    (setRegs v k bs)[j] = if h : k ≤ j ∧ j < k + bs.length then bs[j - k] else v[j] := by
  induction bs generalizing v k with
  | nil => simp only [setRegs, List.length_nil]; rw [dif_neg (by omega)]
  | cons b bs ih =>
    simp only [setRegs, ih, List.length_cons]
    by_cases h1 : k + 1 ≤ j ∧ j < k + 1 + bs.length
    · rw [dif_pos h1, dif_pos (by omega), List.getElem_cons, dif_neg (by omega)]
      congr 1
    · rw [dif_neg h1]
      by_cases h2 : j = k
      · subst h2
        rw [dif_pos (by omega)]
        simp
      · rw [dif_neg (by omega), Vector.getElem_setIfInBounds, if_neg (by omega)]

/-- After a register load, `V[y]` holds the `y`-th byte loaded, and the registers above are as before. -/
theorem State.getV_setVs (s : State) (bs : List Byte) (y : Reg) :
    (s.setVs bs).getV y = if h : y.toNat < bs.length then bs[y.toNat] else s.getV y := by
  simp only [State.getV, State.setVs_v, setRegs_getElem]
  simp

theorem State.getVs_length (s : State) (x : Reg) : (s.getVs x).length = x.toNat + 1 := by
  have := x.isLt
  simp [State.getVs]; omega

theorem State.getVs_getElem (s : State) (x : Reg) (k : Nat) (hk : k < (s.getVs x).length) :
    (s.getVs x)[k] = s.getV (BitVec.ofNat 4 k) := by
  have hx := x.isLt
  have : k < 16 := by rw [State.getVs_length] at hk; omega
  simp [State.getVs, State.getV, Nat.mod_eq_of_lt this]

end Sys2Proof.Machine
end

