-- ==== Sys2Proof/Laws/Ops.lean ====
section
/-! SUPPORT. Everything each shared operation can do, said once: the return stack, the key a register names, the outcome of a skip,
the events, and one event of the machine. -/

namespace Sys2Proof.Machine

/-- A push fills the next free slot, or finds all 16 in use. -/
theorem State.push_cases (s : State) (a : Word) :
    (∃ h : s.sp.val < 16,
      s.push a = .ok { s with stack := s.stack.set s.sp.val a h, sp := ⟨s.sp.val + 1, by omega⟩ }) ∨
    (s.sp.val = 16 ∧ s.push a = .error .stackOverflow) := by
  have := s.sp.isLt
  by_cases h : s.sp.val < 16
  · exact .inl ⟨h, by simp [State.push, h]⟩
  · exact .inr ⟨by omega, by simp [State.push, h]⟩

/-- A pop answers the top slot and leaves it as it is, or finds the stack empty. -/
theorem State.pop_cases (s : State) :
    (∃ h : 0 < s.sp.val,
      s.pop = .ok (s.stack[s.sp.val - 1]'(by omega), { s with sp := ⟨s.sp.val - 1, by omega⟩ })) ∨
    (s.sp.val = 0 ∧ s.pop = .error .stackUnderflow) := by
  by_cases h : s.sp.val = 0
  · exact .inr ⟨h, by simp [State.pop, h]⟩
  · exact .inl ⟨by omega, by simp [State.pop, h]⟩

/-- The key a register's value names: itself below 16, and what `KEY_POLICY` says from 16 on (R526). -/
theorem keyIndex_cases (p : KeyPolicy) (v : Byte) :
    ((v.toNat < 16 ∨ p = .lowNibble) ∧ keyIndex p v = .ok (some (v.setWidth 4))) ∨
    (16 ≤ v.toNat ∧ p = .notPressed ∧ keyIndex p v = .ok none) ∨
    (16 ≤ v.toNat ∧ p = .fault ∧ keyIndex p v = .error (.keyOutOfRange v)) := by
  by_cases h : v.toNat < 16
  · exact .inl ⟨.inl h, by simp [keyIndex, h]⟩
  · cases p
    · exact .inr (.inr ⟨by omega, rfl, by simp [keyIndex, h]⟩)
    · exact .inl ⟨.inr rfl, by simp [keyIndex, h]⟩
    · exact .inr (.inl ⟨by omega, rfl, by simp [keyIndex, h]⟩)

@[simp] theorem Flow.apply_next (pc : Word) : Flow.next.apply pc = pc + 2#16 := rfl
@[simp] theorem Flow.apply_skip (pc : Word) : Flow.skip.apply pc = pc + 4#16 := rfl
@[simp] theorem Flow.apply_jump (a pc : Word) : (Flow.jump a).apply pc = a := rfl
@[simp] theorem Flow.apply_waiting (pc : Word) : Flow.waiting.apply pc = pc := rfl

@[simp] theorem Flow.apply_skipIf (b : Bool) (pc : Word) : (Flow.skipIf b).apply pc = pc + (if b then 4#16 else 2#16) := by
  cases b <;> rfl

/-- A countdown stops at zero (R735). -/
theorem countDown_toNat (t : Byte) : (countDown t).toNat = t.toNat - 1 := by
  unfold countDown
  split
  · have := t.isLt; rw [BitVec.toNat_sub]; simp; omega
  · omega

/-- What a key-down does to the registers (R720, R722). -/
theorem State.getV_keyDown (s : State) (k : Key) (x : Reg) :
    (s.keyDown k).getV x = if s.wait = .awaitingKey x then k.setWidth 8 else s.getV x := by
  unfold State.keyDown State.resolveWait
  cases h : s.wait with
  | running => simp [State.getV]
  | awaitingKey r =>
    refine (State.getV_setV { s with keys := s.keys ||| (1#16 <<< k.toNat) } r x (k.setWidth 8)).trans ?_
    by_cases hx : x = r
    · simp [hx]
    · have : ¬ r = x := fun e => hx e.symm
      simp [hx, this, State.getV]

/-- A load makes the state of R810, or, of more than 3584 bytes, leaves the state as it was (R811). -/
theorem State.deliverLoad_cases (s : State) (image : List Byte) :
    (image.length ≤ 3584 ∧ s.load image = .ok (s.powerOn.writeBytes (imageCells image)) ∧
      s.deliverLoad image = s.powerOn.writeBytes (imageCells image)) ∨
    (3584 < image.length ∧ s.load image = .error (.programTooLarge image.length 3584) ∧ s.deliverLoad image = s) := by
  by_cases h : 3584 < image.length
  · exact .inr ⟨h, by simp [State.load, h], by simp [State.deliverLoad, State.load, h]⟩
  · exact .inl ⟨by omega, by simp [State.load, h], by simp [State.deliverLoad, State.load, h]⟩

/-- Everything one event of the machine can do, when it answers a next state. -/
theorem nextEvent_cases {s t : State} (h : nextEvent s = .next t) :
    (∃ u, (s.schedule = [] ∨ ∃ r rest, s.schedule = .step r :: rest) ∧ engineStep s = .next u ∧ t = u.retireStep) ∨
    (∃ rest, s.schedule = .tick :: rest ∧ t = s.tick.dropEvent) ∨
    (∃ k rest, s.schedule = .keyDown k :: rest ∧ t = (s.keyDown k).dropEvent) ∨
    (∃ k rest, s.schedule = .keyUp k :: rest ∧ t = (s.keyUp k).dropEvent) ∨
    (∃ image rest, s.schedule = .load image :: rest ∧ image.length ≤ 3584 ∧
      t = (s.powerOn.writeBytes (imageCells image)).dropEvent) ∨
    (∃ image rest, s.schedule = .load image :: rest ∧ 3584 < image.length ∧ t = s.dropEvent) ∨
    (∃ rest, s.schedule = .powerOn :: rest ∧ t = s.powerOn.dropEvent) := by
  unfold nextEvent at h
  split at h
  case h_1 hs =>
    cases he : engineStep s <;> simp [he, mapNext] at h
    exact .inl ⟨_, .inl hs, rfl, h.symm⟩
  case h_2 r rest hs =>
    cases he : engineStep s <;> simp [he, mapNext] at h
    exact .inl ⟨_, .inr ⟨r, rest, hs⟩, rfl, h.symm⟩
  case h_3 rest hs => cases h; exact .inr (.inl ⟨rest, hs, rfl⟩)
  case h_4 k rest hs => cases h; exact .inr (.inr (.inl ⟨k, rest, hs, rfl⟩))
  case h_5 k rest hs => cases h; exact .inr (.inr (.inr (.inl ⟨k, rest, hs, rfl⟩)))
  case h_6 image rest hs =>
    cases h
    obtain ⟨hl, -, hd⟩ | ⟨hl, -, hd⟩ := s.deliverLoad_cases image
    · exact .inr (.inr (.inr (.inr (.inl ⟨image, rest, hs, hl, by rw [hd]⟩))))
    · exact .inr (.inr (.inr (.inr (.inr (.inl ⟨image, rest, hs, hl, by rw [hd]⟩)))))
  case h_7 rest hs => cases h; exact .inr (.inr (.inr (.inr (.inr (.inr ⟨rest, hs, rfl⟩)))))

/-- Everything the engine's step can do, when it answers a next state: it waits, or it executes the fetched instruction. -/
theorem engineStep_cases {s t : State} (h : engineStep s = .next t) :
    (∃ r, s.wait = .awaitingKey r ∧ t = s) ∨
    (∃ hi lo i, s.wait = .running ∧ s.fetch = .ok (hi, lo) ∧ decode hi lo = .instr i ∧ exec i s = .next t) := by
  unfold engineStep at h
  split at h
  case h_1 r hw => cases h; exact .inl ⟨r, hw, rfl⟩
  case h_2 hw =>
    split at h
    · simp [raise] at h
    · rename_i hi lo hf
      unfold execDecoded at h
      split at h
      · rename_i i hd; exact .inr ⟨hi, lo, i, hw, hf, hd, h⟩
      · simp [execInvalid, raise] at h

theorem imageCells_lt {image : List Byte} (h : image.length ≤ 3584) : ∀ c ∈ imageCells image, c.1 < 0x1000 := by
  intro c hc
  have := (List.of_mem_zip (a := c.1) (b := c.2) hc).1
  rw [List.mem_range'_1] at this
  omega

end Sys2Proof.Machine
end

