-- ==== Sys2Proof/Laws/PerInstr.lean ====
section
/-! SUPPORT. The family `EncodeRow`: the encoded word of an instruction carries the fixed bits of its row of the opcode map
(spec/30_encoding.md rule R310). -/

namespace Sys2Proof.Laws

/-- The word of `i` has, under its row's mask, its row's match. -/
def EncodeRow.Statement (i : Instr) : Prop := encode i &&& i.rowMask = i.rowMatch

theorem nibble_and_ones (p : BitVec 4) : p &&& 0xF#4 = p := BitVec.and_allOnes

theorem byte_and_ones (b : Byte) : b &&& 0xFF#8 = b := BitVec.and_allOnes

/-- The mask 0xF000 keeps the group nibble of format NNN. -/
theorem encodeNNN_mask (p : BitVec 4) (nnn : Addr) : encodeNNN p nnn &&& 0xF000#16 = encodeNNN p 0 := by
  rw [encodeNNN, show 0xF000#16 = 0xF#4 ++ 0x000#12 from rfl, BitVec.and_append, nibble_and_ones]
  simp [encodeNNN]

/-- The mask 0xF000 keeps the group nibble of format XKK. -/
theorem encodeXKK_mask (p : BitVec 4) (x : Reg) (kk : Byte) : encodeXKK p x kk &&& 0xF000#16 = encodeXKK p 0 0 := by
  rw [encodeXKK, show 0xF000#16 = 0xF#4 ++ (0x0#4 ++ 0x00#8) from rfl, BitVec.and_append, BitVec.and_append, nibble_and_ones]
  simp [encodeXKK]

/-- The mask 0xF0FF keeps the group nibble and the low byte: format X. -/
theorem encodeX_mask (p : BitVec 4) (x : Reg) (kk : Byte) : encodeXKK p x kk &&& 0xF0FF#16 = encodeXKK p 0 kk := by
  rw [encodeXKK, show 0xF0FF#16 = 0xF#4 ++ (0x0#4 ++ 0xFF#8) from rfl, BitVec.and_append, BitVec.and_append, nibble_and_ones,
    byte_and_ones]
  simp [encodeXKK]

/-- The mask 0xF00F keeps the group nibble and the low nibble: format XY. -/
theorem encodeXY_mask (p : BitVec 4) (x y : Reg) (n : BitVec 4) : encodeXYN p x y n &&& 0xF00F#16 = encodeXYN p 0 0 n := by
  rw [encodeXYN, show 0xF00F#16 = 0xF#4 ++ (0x0#4 ++ (0x0#4 ++ 0xF#4)) from rfl, BitVec.and_append, BitVec.and_append,
    BitVec.and_append, nibble_and_ones, nibble_and_ones]
  simp [encodeXYN]

/-- The mask 0xF000 keeps the group nibble of format XYN. -/
theorem encodeXYN_mask (p : BitVec 4) (x y : Reg) (n : BitVec 4) : encodeXYN p x y n &&& 0xF000#16 = encodeXYN p 0 0 0 := by
  rw [encodeXYN, show 0xF000#16 = 0xF#4 ++ (0x0#4 ++ (0x0#4 ++ 0x0#4)) from rfl, BitVec.and_append, BitVec.and_append,
    BitVec.and_append, nibble_and_ones]
  simp [encodeXYN]

theorem EncodeRow.clearDisplay : EncodeRow.Statement .clearDisplay := rfl

theorem EncodeRow.ret : EncodeRow.Statement .ret := rfl

theorem EncodeRow.sysCall (nnn : Addr) : EncodeRow.Statement (.sysCall nnn) := encodeNNN_mask 0x0#4 nnn

theorem EncodeRow.jump (nnn : Addr) : EncodeRow.Statement (.jump nnn) := encodeNNN_mask 0x1#4 nnn

theorem EncodeRow.call (nnn : Addr) : EncodeRow.Statement (.call nnn) := encodeNNN_mask 0x2#4 nnn

theorem EncodeRow.skipIfEq (x : Reg) (kk : Byte) : EncodeRow.Statement (.skipIfEq x kk) := encodeXKK_mask 0x3#4 x kk

theorem EncodeRow.skipIfNe (x : Reg) (kk : Byte) : EncodeRow.Statement (.skipIfNe x kk) := encodeXKK_mask 0x4#4 x kk

theorem EncodeRow.skipIfRegEq (x y : Reg) : EncodeRow.Statement (.skipIfRegEq x y) := encodeXY_mask 0x5#4 x y 0x0#4

theorem EncodeRow.loadImmediate (x : Reg) (kk : Byte) : EncodeRow.Statement (.loadImmediate x kk) := encodeXKK_mask 0x6#4 x kk

theorem EncodeRow.addImmediate (x : Reg) (kk : Byte) : EncodeRow.Statement (.addImmediate x kk) := encodeXKK_mask 0x7#4 x kk

theorem EncodeRow.copy (x y : Reg) : EncodeRow.Statement (.copy x y) := encodeXY_mask 0x8#4 x y 0x0#4

theorem EncodeRow.or (x y : Reg) : EncodeRow.Statement (.or x y) := encodeXY_mask 0x8#4 x y 0x1#4

theorem EncodeRow.and (x y : Reg) : EncodeRow.Statement (.and x y) := encodeXY_mask 0x8#4 x y 0x2#4

theorem EncodeRow.xor (x y : Reg) : EncodeRow.Statement (.xor x y) := encodeXY_mask 0x8#4 x y 0x3#4

theorem EncodeRow.addReg (x y : Reg) : EncodeRow.Statement (.addReg x y) := encodeXY_mask 0x8#4 x y 0x4#4

theorem EncodeRow.subtractReg (x y : Reg) : EncodeRow.Statement (.subtractReg x y) := encodeXY_mask 0x8#4 x y 0x5#4

theorem EncodeRow.shiftRight (x y : Reg) : EncodeRow.Statement (.shiftRight x y) := encodeXY_mask 0x8#4 x y 0x6#4

theorem EncodeRow.subtractReverse (x y : Reg) : EncodeRow.Statement (.subtractReverse x y) := encodeXY_mask 0x8#4 x y 0x7#4

theorem EncodeRow.shiftLeft (x y : Reg) : EncodeRow.Statement (.shiftLeft x y) := encodeXY_mask 0x8#4 x y 0xE#4

theorem EncodeRow.skipIfRegNe (x y : Reg) : EncodeRow.Statement (.skipIfRegNe x y) := encodeXY_mask 0x9#4 x y 0x0#4

theorem EncodeRow.loadIndex (nnn : Addr) : EncodeRow.Statement (.loadIndex nnn) := encodeNNN_mask 0xA#4 nnn

theorem EncodeRow.jumpPlusV0 (nnn : Addr) : EncodeRow.Statement (.jumpPlusV0 nnn) := encodeNNN_mask 0xB#4 nnn

theorem EncodeRow.random (x : Reg) (kk : Byte) : EncodeRow.Statement (.random x kk) := encodeXKK_mask 0xC#4 x kk

theorem EncodeRow.drawSprite (x y : Reg) (n : BitVec 4) : EncodeRow.Statement (.drawSprite x y n) := encodeXYN_mask 0xD#4 x y n

theorem EncodeRow.skipIfKeyDown (x : Reg) : EncodeRow.Statement (.skipIfKeyDown x) := encodeX_mask 0xE#4 x 0x9E#8

theorem EncodeRow.skipIfKeyUp (x : Reg) : EncodeRow.Statement (.skipIfKeyUp x) := encodeX_mask 0xE#4 x 0xA1#8

theorem EncodeRow.loadFromDelay (x : Reg) : EncodeRow.Statement (.loadFromDelay x) := encodeX_mask 0xF#4 x 0x07#8

theorem EncodeRow.waitForKey (x : Reg) : EncodeRow.Statement (.waitForKey x) := encodeX_mask 0xF#4 x 0x0A#8

theorem EncodeRow.storeToDelay (x : Reg) : EncodeRow.Statement (.storeToDelay x) := encodeX_mask 0xF#4 x 0x15#8

theorem EncodeRow.storeToSound (x : Reg) : EncodeRow.Statement (.storeToSound x) := encodeX_mask 0xF#4 x 0x18#8

theorem EncodeRow.addToIndex (x : Reg) : EncodeRow.Statement (.addToIndex x) := encodeX_mask 0xF#4 x 0x1E#8

theorem EncodeRow.loadFontAddress (x : Reg) : EncodeRow.Statement (.loadFontAddress x) := encodeX_mask 0xF#4 x 0x29#8

theorem EncodeRow.storeBcd (x : Reg) : EncodeRow.Statement (.storeBcd x) := encodeX_mask 0xF#4 x 0x33#8

theorem EncodeRow.storeRegisters (x : Reg) : EncodeRow.Statement (.storeRegisters x) := encodeX_mask 0xF#4 x 0x55#8

theorem EncodeRow.loadRegisters (x : Reg) : EncodeRow.Statement (.loadRegisters x) := encodeX_mask 0xF#4 x 0x65#8

end Sys2Proof.Laws
end

