-- ==== Sys2Proof/Tests/Slice0.lean ====
section
/-! SUPPORT. The model's own tests.  Words are written out from spec/30_encoding.md; expected results are those of
spec/95_test_vectors.md, whose vector is named beside each; and for every obligation with hypotheses a state and operands that
meet them. -/

namespace Sys2Proof.Tests

open Sys2Proof Sys2Proof.Machine

/-! ### Helpers -/

/-- The state the next event leaves, where it does not fail. -/
def after (s : State) : Option State :=
  match step s with
  | .next t => some t
  | .fault _ => none
  | .refused _ => none

/-- The error of the next event, where it fails. -/
def stop (s : State) : Option Fault :=
  match step s with
  | .next _ => none
  | .fault f => some f
  | .refused _ => none

/-- The state with the word `op` where the next step fetches it. -/
def word (op : Nat) (s : State) : State := s.withFetchWord 16 op

/-- The reset state with other parameters. -/
def under (p : Params) : State := { State.reset with params := p }

/-! ### WellFormed: the terms of `Instr` that have no word of their own -/

theorem test_wellFormed_refuses_sysCall_0E0 : (Instr.sysCall 0x0E0).wellFormed = false := by decide
theorem test_wellFormed_refuses_sysCall_0EE : (Instr.sysCall 0x0EE).wellFormed = false := by decide
theorem test_wellFormed_accepts_sysCall_0E1 : (Instr.sysCall 0x0E1).wellFormed = true := by decide

/-! ### Decode: a word of every row of spec/30_encoding.md rule R310, each field given a value of its own -/

theorem test_decode_system_and_flow :
    decode 0x00 0xE0 = .instr .clearDisplay ∧ decode 0x00 0xEE = .instr .ret ∧
    decode 0x01 0x23 = .instr (.sysCall 0x123) ∧ decode 0x00 0xE1 = .instr (.sysCall 0x0E1) ∧
    decode 0x1A 0xBC = .instr (.jump 0xABC) ∧ decode 0x23 0x45 = .instr (.call 0x345) ∧
    decode 0xB3 0x0F = .instr (.jumpPlusV0 0x30F) := by decide

theorem test_decode_skips :
    decode 0x31 0x42 = .instr (.skipIfEq 1 0x42) ∧ decode 0x4A 0x9C = .instr (.skipIfNe 0xA 0x9C) ∧
    decode 0x51 0x20 = .instr (.skipIfRegEq 1 2) ∧ decode 0x9F 0xE0 = .instr (.skipIfRegNe 0xF 0xE) ∧
    decode 0xE4 0x9E = .instr (.skipIfKeyDown 4) ∧ decode 0xE5 0xA1 = .instr (.skipIfKeyUp 5) := by decide

theorem test_decode_alu :
    decode 0x6A 0x9C = .instr (.loadImmediate 0xA 0x9C) ∧ decode 0x71 0x02 = .instr (.addImmediate 1 0x02) ∧
    decode 0x81 0x20 = .instr (.copy 1 2) ∧ decode 0x81 0x21 = .instr (.or 1 2) ∧ decode 0x81 0x22 = .instr (.and 1 2) ∧
    decode 0x81 0x23 = .instr (.xor 1 2) ∧ decode 0x81 0x24 = .instr (.addReg 1 2) ∧
    decode 0x81 0x25 = .instr (.subtractReg 1 2) ∧ decode 0x81 0x26 = .instr (.shiftRight 1 2) ∧
    decode 0x81 0x27 = .instr (.subtractReverse 1 2) ∧ decode 0x81 0x2E = .instr (.shiftLeft 1 2) ∧
    decode 0xC1 0x0F = .instr (.random 1 0x0F) := by decide

theorem test_decode_display_timers_and_memory :
    decode 0xD1 0x25 = .instr (.drawSprite 1 2 5) ∧ decode 0xF5 0x07 = .instr (.loadFromDelay 5) ∧
    decode 0xF4 0x0A = .instr (.waitForKey 4) ∧ decode 0xF3 0x15 = .instr (.storeToDelay 3) ∧
    decode 0xF3 0x18 = .instr (.storeToSound 3) ∧ decode 0xA3 0x45 = .instr (.loadIndex 0x345) ∧
    decode 0xF2 0x1E = .instr (.addToIndex 2) ∧ decode 0xF0 0x29 = .instr (.loadFontAddress 0) ∧
    decode 0xFA 0x33 = .instr (.storeBcd 0xA) ∧ decode 0xF2 0x55 = .instr (.storeRegisters 2) ∧
    decode 0xF2 0x65 = .instr (.loadRegisters 2) := by decide

/-- Rules R309, R312 and vectors Y5 to Y13. -/
theorem test_decode_invalid :
    decode 0xFF 0xFF = .invalid 0xFFFF ∧ decode 0x51 0x21 = .invalid 0x5121 ∧ decode 0x81 0x28 = .invalid 0x8128 ∧
    decode 0x81 0x2F = .invalid 0x812F ∧ decode 0x91 0x21 = .invalid 0x9121 ∧ decode 0xE1 0xA2 = .invalid 0xE1A2 ∧
    decode 0xE1 0x9F = .invalid 0xE19F ∧ decode 0xF1 0x00 = .invalid 0xF100 ∧ decode 0xF1 0xFF = .invalid 0xF1FF := by decide

theorem test_decodeTableWord :
    decodeTableWord 16 0x1ABC = some (.jump 0xABC) ∧ decodeTableWord 16 0xFFFF = none ∧
    decodeTableWord 16 (encode (.drawSprite 1 2 5)).toNat = some (.drawSprite 1 2 5) := by decide

/-! ### One step each, from the vectors of spec/95_test_vectors.md -/

/-- F1. -/
theorem test_jump : (after (word 0x1ABC State.reset)).map (·.pc) = some 0x0ABC := by decide

/-- F5 and F7: the 16th level fills slot 15; a call at 0x0FFE pushes 0x1000. -/
theorem test_call_fills_slot_15 :
    (after (word 0x2300 { State.reset with sp := 15 })).map (fun t => (t.sp, t.stack[15], t.pc)) =
      some (16, 0x0202, 0x0300) := by decide

theorem test_call_pushes_1000 :
    (after (word 0x2FFE { State.reset with pc := 0x0FFE })).map (fun t => (t.stack[0], t.pc)) = some (0x1000, 0x0FFE) := by decide

/-- F9: the popped slot keeps its contents. -/
theorem test_return :
    (after (word 0x00EE { State.reset with sp := 2, stack := State.reset.stack.set 1 0x031A })).map
      (fun t => (t.sp, t.stack[1], t.pc)) = some (1, 0x031A, 0x031A) := by decide

/-- F10. -/
theorem test_return_underflow : stop (word 0x00EE State.reset) = some .stackUnderflow := by decide

/-- F12: no 12-bit mask; F13: the addend is V0. -/
theorem test_jumpPlusV0_not_masked :
    (after (word 0xBFFF (State.reset.setV 0 0xFF))).map (·.pc) = some 0x10FE := by decide

theorem test_jumpPlusV0_adds_V0 :
    (after (word 0xB3FF ((State.reset.setV 0 1).setV 3 0x55))).map (·.pc) = some 0x0400 := by decide

/-- S1, S2. -/
theorem test_skipIfEq :
    (after (word 0x3142 (State.reset.setV 1 0x42))).map (·.pc) = some 0x0204 ∧
    (after (word 0x3142 (State.reset.setV 1 0x43))).map (·.pc) = some 0x0202 := by decide

/-- S11: `pc + 4` wraps modulo 0x10000 under `OOB_POLICY = Wrap`. -/
theorem test_skip_wraps_pc :
    (after (word 0x3000 { under { defaultParams with oobPolicy := .wrap } with pc := 0xFFFC })).map (·.pc) = some 0 := by decide

/-- S3, S4. -/
theorem test_skipIfNe :
    (after (word 0x4142 (State.reset.setV 1 0x42))).map (·.pc) = some 0x0202 ∧
    (after (word 0x4142 (State.reset.setV 1 0x43))).map (·.pc) = some 0x0204 := by decide

/-- S5, S6. -/
theorem test_skipIfRegEq :
    (after (word 0x5120 ((State.reset.setV 1 7).setV 2 7))).map (·.pc) = some 0x0204 ∧
    (after (word 0x5120 ((State.reset.setV 1 7).setV 2 8))).map (·.pc) = some 0x0202 := by decide

/-- S8, S9. -/
theorem test_skipIfRegNe :
    (after (word 0x9120 ((State.reset.setV 1 7).setV 2 8))).map (·.pc) = some 0x0204 ∧
    (after (word 0x9120 ((State.reset.setV 1 7).setV 2 7))).map (·.pc) = some 0x0202 := by decide

/-- A1. -/
theorem test_loadImmediate : (after (word 0x6A9C State.reset)).map (fun t => (t.getV 0xA, t.pc)) = some (0x9C, 0x0202) := by decide

/-- A4: wraps the other way, `VF` not written. -/
theorem test_addImmediate_keeps_VF :
    (after (word 0x71FF (State.reset.setV VF 1))).map (fun t => (t.getV 1, t.getV VF)) = some (0xFF, 1) := by decide

/-- A5. -/
theorem test_addImmediate_to_VF : (after (word 0x7F01 (State.reset.setV VF 0xFF))).map (·.getV VF) = some 0 := by decide

/-- A6. -/
theorem test_copy : (after (word 0x8120 (State.reset.setV 2 0x33))).map (fun t => (t.getV 1, t.getV 2)) = some (0x33, 0x33) := by decide

/-- A7: `VF` kept. -/
theorem test_or :
    (after (word 0x8121 (((State.reset.setV 1 0xF0).setV 2 0x0F).setV VF 1))).map (fun t => (t.getV 1, t.getV VF)) =
      some (0xFF, 1) := by decide

/-- A8. -/
theorem test_and : (after (word 0x8122 ((State.reset.setV 1 0xF0).setV 2 0x3C))).map (·.getV 1) = some 0x30 := by decide

/-- A9, A10. -/
theorem test_xor :
    (after (word 0x8123 ((State.reset.setV 1 0xF0).setV 2 0x3C))).map (·.getV 1) = some 0xCC ∧
    (after (word 0x8113 (State.reset.setV 1 0x5A))).map (·.getV 1) = some 0 := by decide

/-- A13, A16: the sum and the carry; `y = 15` adds the old `VF`. -/
theorem test_addReg :
    (after (word 0x8124 ((State.reset.setV 1 0xFF).setV 2 0xFF))).map (fun t => (t.getV 1, t.getV VF)) = some (0xFE, 1) ∧
    (after (word 0x81F4 ((State.reset.setV 1 0x10).setV VF 5))).map (fun t => (t.getV 1, t.getV VF)) = some (0x15, 0) := by decide

/-- A17, A18: `x = 15` in both orders. -/
theorem test_addReg_to_VF :
    (after (word 0x8F14 ((State.reset.setV VF 0xFF).setV 1 3))).map (·.getV VF) = some 1 ∧
    (after (word 0x8F14 (((under { defaultParams with vfOrder := .resultLast }).setV VF 0xFF).setV 1 3))).map (·.getV VF) =
      some 2 := by decide

/-- A20, A21. -/
theorem test_subtractReg :
    (after (word 0x8125 ((State.reset.setV 1 3).setV 2 5))).map (fun t => (t.getV 1, t.getV VF)) = some (0xFE, 0) ∧
    (after (word 0x8125 ((State.reset.setV 1 7).setV 2 7))).map (fun t => (t.getV 1, t.getV VF)) = some (0, 1) := by decide

/-- A26, A28: the source is `V[x]` by default and `V[y]` under `SHIFT_SOURCE = Vy`. -/
theorem test_shiftRight :
    (after (word 0x8106 (State.reset.setV 1 5))).map (fun t => (t.getV 1, t.getV VF)) = some (2, 1) ∧
    (after (word 0x8126 (((under { defaultParams with shiftSource := .vy }).setV 1 5).setV 2 0x10))).map
      (fun t => (t.getV 1, t.getV VF)) = some (8, 0) := by decide

/-- A31, A32. -/
theorem test_shiftRight_of_VF :
    (after (word 0x8F06 (State.reset.setV VF 2))).map (·.getV VF) = some 0 ∧
    (after (word 0x8F06 ((under { defaultParams with vfOrder := .resultLast }).setV VF 2))).map (·.getV VF) = some 1 := by decide

/-- A23, A24. -/
theorem test_subtractReverse :
    (after (word 0x8127 ((State.reset.setV 1 3).setV 2 5))).map (fun t => (t.getV 1, t.getV VF)) = some (2, 1) ∧
    (after (word 0x8127 ((State.reset.setV 1 5).setV 2 3))).map (fun t => (t.getV 1, t.getV VF)) = some (0xFE, 0) := by decide

/-- A33, A35. -/
theorem test_shiftLeft :
    (after (word 0x810E (State.reset.setV 1 0x81))).map (fun t => (t.getV 1, t.getV VF)) = some (2, 1) ∧
    (after (word 0x810E ((State.reset.setV 1 0x7F).setV VF 1))).map (fun t => (t.getV 1, t.getV VF)) = some (0xFE, 0) := by decide

/-- A36. -/
theorem test_shiftLeft_of_Vy :
    (after (word 0x812E (((under { defaultParams with shiftSource := .vy }).setV 1 1).setV 2 0xC0))).map
      (fun t => (t.getV 1, t.getV VF)) = some (0x80, 1) := by decide

/-- A39. -/
theorem test_random :
    (after (word 0xC10F { State.reset with schedule := [.step 0xAB] })).map (·.getV 1) = some 0x0B := by decide

/-- D1. -/
theorem test_clearDisplay :
    (after (word 0x00E0 { State.reset with fb := (State.reset.fb.toggle 63 31).toggle 10 5 })).map
      (fun t => (t.fb.pixel 63 31, t.fb.pixel 10 5, t.pc)) = some (false, false, 0x0202) := by decide

/-- D5: the sprite wraps at both edges. -/
theorem test_drawSprite_wraps :
    (after (word 0xD012 ((({ State.reset with i := 0x300 }.setV 0 0x3F).setV 1 0x1F).writeByte 0x300 0xC0 |>.writeByte 0x301 0x80))).map
      (fun t => (t.fb.pixel 63 31, t.fb.pixel 0 31, t.fb.pixel 63 0, t.fb.pixel 0 0, t.getV VF)) =
      some (true, true, true, false, 0) := by decide

/-- D3 and D9: a collision; `x = 15` draws at the old `VF`. -/
theorem test_drawSprite_collision_and_old_VF :
    (after (word 0xD011 ({ State.reset with i := 0x300, fb := State.reset.fb.toggle 0 0 }.writeByte 0x300 0x80))).map
      (fun t => (t.fb.pixel 0 0, t.getV VF)) = some (false, 1) ∧
    (after (word 0xDF01 ((({ State.reset with i := 0x300 }.setV VF 4).setV 0 1).writeByte 0x300 0x80))).map
      (fun t => (t.fb.pixel 4 1, t.getV VF)) = some (true, 0) := by decide

/-- K1, K5, K8. -/
theorem test_skipIfKeyDown :
    (after (word 0xE49E ({ State.reset with keys := 0x0080 }.setV 4 7))).map (·.pc) = some 0x0204 ∧
    stop (word 0xE49E ({ State.reset with keys := 0x0080 }.setV 4 0x17)) = some (.keyOutOfRange 0x17) ∧
    (after (word 0xE49E ({ under { defaultParams with keyPolicy := .notPressed } with keys := 0x0080 }.setV 4 0x17))).map (·.pc) =
      some 0x0202 := by decide

/-- K6. -/
theorem test_skipIfKeyDown_lowNibble :
    (after (word 0xE49E ({ under { defaultParams with keyPolicy := .lowNibble } with keys := 0x0080 }.setV 4 0x17))).map (·.pc) =
      some 0x0204 := by decide

/-- K3, K4, K7. -/
theorem test_skipIfKeyUp :
    (after (word 0xE4A1 (State.reset.setV 4 7))).map (·.pc) = some 0x0204 ∧
    (after (word 0xE4A1 ({ State.reset with keys := 0x0080 }.setV 4 7))).map (·.pc) = some 0x0202 ∧
    (after (word 0xE4A1 ({ under { defaultParams with keyPolicy := .notPressed } with keys := 0x0080 }.setV 4 0x17))).map (·.pc) =
      some 0x0204 := by decide

/-- K9, K11. -/
theorem test_waitForKey :
    (after (word 0xF40A { State.reset with pc := 0x0204 })).map (fun t => (t.wait, t.pc)) = some (.awaitingKey 4, 0x0206) ∧
    (after (word 0xFF0A { State.reset with keys := 8 })).map (·.wait) = some (.awaitingKey 15) := by decide

/-- K10. -/
theorem test_waiting_step :
    (after { State.reset with wait := .awaitingKey 4, pc := 0x2000 }).map (fun t => (t.wait, t.pc)) =
      some (.awaitingKey 4, 0x2000) := by decide

/-- T1. -/
theorem test_loadFromDelay : (after (word 0xF507 { State.reset with dt := 0x3C })).map (·.getV 5) = some 0x3C := by decide

/-- T2. -/
theorem test_storeToDelay : (after (word 0xF315 (State.reset.setV 3 0x14))).map (fun t => (t.dt, t.st)) = some (0x14, 0) := by decide

/-- T3. -/
theorem test_storeToSound : (after (word 0xF318 (State.reset.setV 3 2))).map (fun t => (t.dt, t.st)) = some (0, 2) := by decide

/-- M1. -/
theorem test_loadIndex : (after (word 0xA300 State.reset)).map (·.i) = some 0x0300 := by decide

/-- M3 and M6. -/
theorem test_addToIndex_off :
    (after (word 0xF21E ({ State.reset with i := 0xFFFF }.setV 2 2))).map (fun t => (t.i, t.getV VF)) = some (1, 0) ∧
    (after (word 0xF21E ({ State.reset with i := 0x0F00 }.setV 2 1))).map (fun t => (t.i, t.getV VF)) = some (0x0F01, 0) := by decide

/-- M4 and M5. -/
theorem test_addToIndex_on :
    (after (word 0xF21E ({ under { defaultParams with indexVf := .on } with i := 0x0F00 }.setV VF 1))).map (·.getV VF) = some 0 ∧
    (after (word 0xF21E ({ under { defaultParams with indexVf := .on } with i := 0x0F00 }.setV 2 1))).map
      (fun t => (t.i, t.getV VF)) = some (0x0F01, 1) := by decide

/-- M8, M9. -/
theorem test_loadFontAddress :
    (after (word 0xF029 (State.reset.setV 0 0xA))).map (·.i) = some 0x0032 ∧
    (after (word 0xF029 (State.reset.setV 0 0xFF))).map (·.i) = some 0x04FB := by decide

/-- M11. -/
theorem test_storeBcd :
    (after (word 0xFA33 ({ State.reset with i := 0x300 }.setV 0xA 0x9C))).map
      (fun t => (t.readByte 0x300, t.readByte 0x301, t.readByte 0x302, t.i)) = some (1, 5, 6, 0x300) := by decide

/-- M16: the first address out of range, and nothing written. -/
theorem test_storeBcd_out_of_range :
    stop (word 0xFA33 ({ State.reset with i := 0x0FFE }.setV 0xA 0x9C)) = some (.addressOutOfRange 0x1000) := by decide

/-- M17. -/
theorem test_storeRegisters :
    (after (word 0xF155 ((({ State.reset with i := 0x400 }.setV 0 0x11).setV 1 0x22).setV 2 0x33))).map
      (fun t => (t.readByte 0x400, t.readByte 0x401, t.readByte 0x402, t.i)) = some (0x11, 0x22, 0, 0x400) := by decide

/-- M20: under `Wrap` the third byte goes to 0x000, over the font. -/
theorem test_storeRegisters_wraps :
    (after (word 0xF255 ((({ under { defaultParams with oobPolicy := .wrap } with i := 0x0FFE }.setV 0 1).setV 1 2).setV 2 3))).map
      (fun t => (t.readByte 0xFFE, t.readByte 0xFFF, t.readByte 0)) = some (1, 2, 3) := by decide

/-- M21, with the font's first bytes F0 90 90 as the source. -/
theorem test_loadRegisters :
    (after (word 0xF265 (State.reset.setV 3 0xEE))).map (fun t => (t.getV 0, t.getV 1, t.getV 2, t.getV 3)) =
      some (0xF0, 0x90, 0x90, 0xEE) := by decide

/-- M23. -/
theorem test_loadRegisters_out_of_range :
    stop (word 0xF065 { State.reset with i := 0x1000 }) = some (.addressOutOfRange 0x1000) := by decide

/-- Y2. -/
theorem test_sysCall : (after (word 0x0123 State.reset)).map (·.pc) = some 0x0202 := by decide

/-- Y5. -/
theorem test_invalid : stop (word 0xFFFF State.reset) = some (.badInstruction 0xFFFF) := by decide

/-- C1, C2. -/
theorem test_fetch_at_odd_and_top :
    (after (word 0x6001 { State.reset with pc := 0x0203 })).map (fun t => (t.getV 0, t.pc)) = some (1, 0x0205) ∧
    (after (word 0x6001 { State.reset with pc := 0x0FFE })).map (fun t => (t.getV 0, t.pc)) = some (1, 0x1000) := by decide

/-- C3, C5. -/
theorem test_fetch_at_0FFF :
    stop { State.reset with pc := 0x0FFF } = some (.addressOutOfRange 0x1000) ∧
    (after ({ under { defaultParams with oobPolicy := .wrap } with pc := 0x0FFF }.writeByte 0xFFF 0x60)).map
      (fun t => (t.getV 0, t.pc)) = some (0xF0, 0x1001) := by decide

/-! ### Events -/

/-- E2, E4. -/
theorem test_tick :
    (after { State.reset with schedule := [.tick], dt := 5, st := 0, wait := .awaitingKey 4 }).map
      (fun t => (t.dt, t.st, t.wait, t.schedule)) = some (4, 0, .awaitingKey 4, []) := by decide

/-- E8, E9. -/
theorem test_keys_during_wait :
    (after { State.reset with schedule := [.keyDown 5], wait := .awaitingKey 4 }).map
      (fun t => (t.getV 4, t.keys, t.wait)) = some (5, 0x0020, .running) ∧
    (after { State.reset with schedule := [.keyUp 5], wait := .awaitingKey 4, keys := 0x0020 }).map
      (fun t => (t.getV 4, t.keys, t.wait)) = some (0, 0, .awaitingKey 4) := by decide

/-- The load of vectors W6 and E13. -/
theorem load_oversized (s : State) :
    s.load (List.replicate 3585 0xAB) = .error (.programTooLarge 3585 3584) := by
  unfold State.load
  rw [List.length_replicate]
  exact if_pos (by decide)

/-- E13: the load changes nothing, and the step after it is next. -/
theorem test_load_oversized :
    ((after { State.reset.setV 3 9 with schedule := [.load (List.replicate 3585 0xAB), .step 0] }).map
      fun t => (t.getV 3, t.pc, t.schedule)) = some (9, 0x0200, [.step 0]) := by
  simp only [after, step, nextEvent, State.deliverLoad, load_oversized]
  rfl

/-- E12. -/
theorem test_load :
    (after ({ State.reset with schedule := [.load [0x12]], dt := 2, wait := .awaitingKey 2, pc := 0x300 }.setV 3 9)).map
      (fun t => (t.getV 3, t.dt, t.readByte 0x200, t.wait, t.pc)) = some (0, 0, 0x12, .running, 0x0200) := by decide

/-- "After an error": the driver goes on from the same state. -/
theorem test_driver_after_error :
    (drive [.step 0, .step 0, .tick] (word 0x00EE { State.reset with dt := 3 })).1 =
      [.err .stackUnderflow, .err .stackUnderflow, .ok none] ∧
    (drive [.step 0, .step 0, .tick] (word 0x00EE { State.reset with dt := 3 })).2.dt = 2 := by decide

/-- Rules R152 and R130: pixel (3, 31) is bit 31 * 64 + 3 of the snapshot; `reg` is 0 while running. -/
theorem test_snapshot :
    ({ State.reset with fb := State.reset.fb.toggle 3 31 } : State).fbOutput 1987 = true ∧
    (WaitState.awaitingKey 15).reg = 15 ∧ WaitState.running.reg = 0 ∧ WaitState.running.awaiting = false := by decide

/-! ### What meets the hypotheses of the obligations -/

theorem witness_DecodeOfEncodedInstruction : (Instr.drawSprite 15 15 15).wellFormed = true := by decide

theorem witness_EncodeOfDecodedWord : decode 0xDF 0xFF = .instr (.drawSprite 15 15 15) := by decide

theorem witness_DecodeAgreesWithOpcodeMap :
    decode 0x00 0xEE = .instr .ret ∧ decode 0xE1 0x9F = .invalid 0xE19F := by decide

/-- A word that runs, and one that raises an error. -/
theorem witness_StepRunsDecodedInstruction :
    (∃ t, StepIsNext (word 0x6001 State.reset) ∧ (word 0x6001 State.reset).wait = .running ∧
      (word 0x6001 State.reset).fetch = .ok (0x60, 0x01) ∧ decode 0x60 0x01 = .instr (.loadImmediate 0 1) ∧
      exec (.loadImmediate 0 1) (word 0x6001 State.reset) = .next t) ∧
    (StepIsNext (word 0x00EE State.reset) ∧ (word 0x00EE State.reset).wait = .running ∧
      (word 0x00EE State.reset).fetch = .ok (0x00, 0xEE) ∧ decode 0x00 0xEE = .instr .ret ∧
      exec .ret (word 0x00EE State.reset) = .fault .stackUnderflow) :=
  ⟨⟨_, .inl rfl, rfl, rfl, by decide, rfl⟩, .inl rfl, rfl, rfl, by decide, rfl⟩

theorem witness_WaitingStepChangesNothing :
    StepIsNext { State.reset with wait := .awaitingKey 15, schedule := [.step 0xAB] } ∧
    ({ State.reset with wait := .awaitingKey 15, schedule := [.step 0xAB] } : State).wait = .awaitingKey 15 :=
  ⟨.inr ⟨0xAB, [], rfl⟩, rfl⟩

/-- The four clauses, at the edge of the address space. -/
theorem witness_FetchIsBigEndianAndChecked :
    ({ State.reset with pc := 0x0FFE } : State).pc.toNat + 1 < 0x1000 ∧
    ({ under { defaultParams with oobPolicy := .wrap } with pc := 0xFFFF } : State).params.oobPolicy = .wrap ∧
    (State.reset.params.oobPolicy = .fault ∧ 0x1000 ≤ ({ State.reset with pc := 0x1000 } : State).pc.toNat) ∧
    ({ State.reset with pc := 0x0FFF } : State).pc = 0x0FFF#16 := by decide

theorem witness_FetchErrorEndsTheStep :
    StepIsNext { State.reset with pc := 0x0FFF } ∧ ({ State.reset with pc := 0x0FFF } : State).wait = .running ∧
    ({ State.reset with pc := 0x0FFF } : State).fetch = .error (.addressOutOfRange 0x1000) := ⟨.inl rfl, rfl, rfl⟩

/-- Both sides hold for the word 0x5121. -/
theorem witness_InvalidWordRaisesBadInstruction :
    step (word 0x5121 State.reset) = .fault (.badInstruction 0x5121) ∧
    (word 0x5121 State.reset).fetch = .ok (Word.hi 0x5121, Word.lo 0x5121) ∧
    ∀ row ∈ opcodeMap, (0x5121#16 : Word) &&& row.1 ≠ row.2 := ⟨rfl, rfl, by simp [opcodeMap]⟩

/-- One instruction of each outcome. -/
theorem witness_OutcomeMovesPc :
    (∃ t, exec (.sysCall 0) { State.reset with pc := 0xFFFE } = .next t) ∧ (∃ t, exec (.skipIfEq 0 0) State.reset = .next t) ∧
    (∃ t, exec (.jump 0xFFF) State.reset = .next t) := ⟨⟨_, rfl⟩, ⟨_, rfl⟩, ⟨_, rfl⟩⟩

theorem witness_PlacedWordIsFetchedNext : ({ State.reset with wait := .awaitingKey 3, pc := 0x0FFF } : State).memWf = true := by decide

/-- Both clauses, at depth 15 and at depth 16. -/
theorem witness_CallPushesReturnAddress :
    ({ State.reset with sp := 15 } : State).sp.val < 16 ∧ ({ State.reset with sp := 16 } : State).sp.val = 16 := by decide

/-- Both clauses, at the full, the one-entry and the empty stack. -/
theorem witness_ReturnPopsReturnAddress :
    0 < ({ State.reset with sp := 16 } : State).sp.val ∧ 0 < ({ State.reset with sp := 1 } : State).sp.val ∧
    State.reset.sp.val = 0 := by decide

theorem witness_ReturnUndoesCall :
    ∃ t u : State, exec (.call 0x300) { State.reset with sp := 15 } = .next t ∧ u.stack = t.stack ∧ u.sp = t.sp :=
  ⟨_, _, rfl, rfl, rfl⟩

/-- The cases of `ResultAndFlag`: another register, and register 15 in both orders. -/
theorem witness_ResultAndFlag :
    (14#4 : Reg) ≠ VF ∧ (15#4 : Reg) = VF ∧ State.reset.params.vfOrder = .flagLast ∧
    (under { defaultParams with vfOrder := .resultLast }).params.vfOrder = .resultLast := by decide

/-- A source for each value of `SHIFT_SOURCE`. -/
theorem witness_ShiftsMoveOneBit :
    ((State.reset.params.shiftSource = .vx → (5 : Byte) = (State.reset.setV 1 5).getV 1) ∧
      (State.reset.params.shiftSource = .vy → (5 : Byte) = (State.reset.setV 1 5).getV 2)) ∧
    (((under { defaultParams with shiftSource := .vy }).params.shiftSource = .vx → (9 : Byte) = (State.reset.setV 2 9).getV 1) ∧
      ((under { defaultParams with shiftSource := .vy }).params.shiftSource = .vy →
        (9 : Byte) = ((under { defaultParams with shiftSource := .vy }).setV 2 9).getV 2)) := by decide

theorem witness_RandomMasksTheStepsByte :
    ({ State.reset with schedule := [.step 0xAB, .tick] } : State).schedule = [.step 0xAB, .tick] ∧ State.reset.schedule = [] := by
  decide

theorem witness_OnlyRandomReadsTheRandomByte : ∀ x kk, Instr.drawSprite 0 1 15 ≠ .random x kk := by intro x kk h; cases h

/-- Accessible sprites: the last byte of memory, and past it under `Wrap`; a pixel covered and set, and one not covered. -/
theorem witness_DrawSpriteXorsPixels :
    Accessible { State.reset with i := 0x0FF1 } 0x0FF1 15 ∧
    Accessible { under { defaultParams with oobPolicy := .wrap } with i := 0xFFFF } 0xFFFF 15 ∧
    Accessible State.reset 0 1 ∧ SpriteCovers 63 31 1 (fun row => State.reset.readByte ((0 + row) % 0x1000)) 0 31 ∧
    (State.reset.fb.toggle 0 31).pixel 0 31 = true ∧
    ¬ SpriteCovers 63 31 1 (fun row => State.reset.readByte ((0 + row) % 0x1000)) 0 0 ∧
    (∀ c r, SpriteCovers 63 31 1 (fun row => State.reset.readByte ((0 + row) % 0x1000)) c r →
      State.reset.fb.pixel c r = false) := by
  refine ⟨.inr (by decide), .inl rfl, .inr (by decide), ⟨0, by decide, 1, by decide, by decide, by decide, by decide⟩, by decide, ?_,
    fun c r _ => ?_⟩
  · rintro ⟨row, hrow, col, hcol, -, -, h⟩
    simp at h
    omega
  · simp [State.reset, Framebuffer.pixel]

theorem witness_DrawSpriteTwiceRestoresFramebuffer :
    ∃ t, exec (.drawSprite 0 1 5) State.reset = .next t ∧ t.getV 0 = State.reset.getV 0 ∧ t.getV 1 = State.reset.getV 1 :=
  ⟨_, rfl, rfl, rfl⟩

/-- The five clauses, at the values 15 and 16. -/
theorem witness_KeySkipsTestTheKeyMask :
    (((State.reset.setV 0 15).getV 0).toNat < 16 ∧ ({ State.reset with keys := 0x8000 } : State).keys.getLsbD 15 = true) ∧
    State.reset.keys.getLsbD 15 = false ∧
    (16 ≤ ((State.reset.setV 0 16).getV 0).toNat ∧ State.reset.params.keyPolicy = .fault) ∧
    (under { defaultParams with keyPolicy := .lowNibble }).params.keyPolicy = .lowNibble ∧
    (under { defaultParams with keyPolicy := .notPressed }).params.keyPolicy = .notPressed := by decide

/-- A key-down while a key is awaited, and one while the machine runs. -/
theorem witness_KeyDownSetsKeyAndEndsWait :
    (({ State.reset with schedule := [.keyDown 15], wait := .awaitingKey 15 } : State).schedule = .keyDown 15 :: [] ∧
      ({ State.reset with schedule := [.keyDown 15], wait := .awaitingKey 15 } : State).wait = .awaitingKey 15) ∧
    ({ State.reset with schedule := [.keyDown 0] } : State).wait = .running := by decide

theorem witness_KeyUpOnlyClearsKey : ({ State.reset with schedule := [.keyUp 15] } : State).schedule = .keyUp 15 :: [] := by decide

/-- A wait that a step leaves, one that a key-down ends, and one that each of the two resets ends. -/
theorem witness_OnlyKeyDownOrResetEndsAWait :
    (∃ t, step { State.reset with wait := .awaitingKey 4 } = .next t) ∧
    (∃ t, step { State.reset with wait := .awaitingKey 4, schedule := [.keyDown 5] } = .next t) ∧
    (∃ t, step { State.reset with wait := .awaitingKey 4, schedule := [.load []] } = .next t) ∧
    (∃ t, step { State.reset with wait := .awaitingKey 4, schedule := [.powerOn] } = .next t) ∧ ([] : List Byte).length ≤ 3584 :=
  ⟨⟨_, rfl⟩, ⟨_, rfl⟩, ⟨_, rfl⟩, ⟨_, rfl⟩, by decide⟩

theorem witness_TickCountsBothTimersDown : ({ State.reset with schedule := [.tick, .tick] } : State).schedule = .tick :: [.tick] := by
  decide

theorem witness_IndexInstructionsSetI :
    State.reset.params.indexVf = .off ∧ (under { defaultParams with indexVf := .on }).params.indexVf = .on := by decide

/-- The last three bytes of memory, and past them under `Wrap`. -/
theorem witness_StoreBcdStoresThreeDigits :
    State.reset.memWf = true ∧ Accessible { State.reset with i := 0x0FFD } 0x0FFD 3 ∧
    Accessible { under { defaultParams with oobPolicy := .wrap } with i := 0x0FFE } 0x0FFE 3 :=
  ⟨rfl, .inr (by decide), .inl rfl⟩

/-- All 16 registers at the end of memory, and past it under `Wrap`; an address that a register goes to, and one that none does. -/
theorem witness_StoreAndLoadRegisters :
    State.reset.memWf = true ∧ Accessible { State.reset with i := 0x0FF0 } 0x0FF0 (15 + 1) ∧
    Accessible { under { defaultParams with oobPolicy := .wrap } with i := 0xFFFF } 0xFFFF (15 + 1) ∧
    resolveAddr .fault (0x0FF0 + 15) = .ok 0x0FFF ∧ resolveAddr .wrap (0xFFFF + 15) = .ok 0x00E ∧
    ∀ k ≤ 15, resolveAddr .fault (0x0FF0 + k) ≠ .ok 0x0FEF := by
  refine ⟨rfl, .inr (by decide), .inl rfl, rfl, rfl, fun k hk h => ?_⟩
  have : 0x0FF0 + k < 0x1000 := by omega
  simp [resolveAddr, this] at h
  omega

theorem witness_LoadRegistersUndoesStoreRegisters :
    ∃ t u : State, exec (.storeRegisters 15) { State.reset with i := 0x0FF0 } = .next t ∧ u.mem = t.mem ∧ u.i = t.i ∧
      u.params = t.params := ⟨_, _, rfl, rfl, rfl, rfl⟩

/-- The last word of memory. -/
theorem witness_StoredBytesAreFetched :
    State.reset.memWf = true ∧ (∃ t, exec (.storeRegisters 1) { State.reset with i := 0x0FFE } = .next t) ∧
    0 + 1 ≤ (1#4).toNat ∧ ({ State.reset with i := 0x0FFE } : State).i.toNat + 0 + 1 < 0x1000 :=
  ⟨rfl, ⟨_, rfl⟩, by decide, by decide⟩

theorem witness_SysCallIsANoOp :
    (0x0E1#12 : Addr) ≠ 0x0E0#12 ∧ (0x0E1#12 : Addr) ≠ 0x0EE#12 := by decide

/-- Each error that an instruction raises. -/
theorem witness_InstructionErrorsAreExactlyThoseListed :
    Raises (.call 0) { State.reset with sp := 16 } .stackOverflow ∧ Raises .ret State.reset .stackUnderflow ∧
    Raises (.storeBcd 0) { State.reset with i := 0x0FFE } (.addressOutOfRange 0x1000) ∧
    Raises (.skipIfKeyUp 0) (State.reset.setV 0 16) (.keyOutOfRange 16) :=
  ⟨⟨⟨0, rfl⟩, rfl⟩, ⟨rfl, rfl⟩, ⟨rfl, by decide, by decide, by decide⟩, rfl, by decide, 0, .inr rfl, rfl⟩

/-- No error is listed for a store at the last three bytes. -/
theorem witness_EveryInstructionCompletesUnlessItRaises : ∀ f, ¬ Raises (.storeBcd 0) { State.reset with i := 0x0FFD } f := by
  intro f
  cases f <;> simp [Raises, dataBytes, State.reset]

/-- A step that fails, and (below) a load that does. -/
theorem witness_ErrorLeavesStateAndDriverGoesOn :
    respond (.step 0) (word 0x00EE State.reset) = (.err .stackUnderflow, word 0x00EE State.reset) ∧
    (Response.err .stackUnderflow).failed = true ∧
    ([0x12, 0x04] : List Byte).length ≤ 3584 := by decide

theorem witness_ErrorLeavesStateAndDriverGoesOn_load :
    respond (.load (List.replicate 3585 0xAB)) (State.reset.setV 3 9) =
      (.loadErr (.programTooLarge 3585 3584), State.reset.setV 3 9) ∧
    (Response.loadErr (.programTooLarge 3585 3584)).failed = true := by
  refine ⟨?_, rfl⟩
  simp only [respond, Event.loadError, load_oversized]

theorem witness_ResetStateIsPowerOnState : ({ State.reset with schedule := [.powerOn] } : State).schedule = .powerOn :: [] := by decide

/-- The largest image that fits, and the smallest that does not. -/
theorem witness_loads :
    (List.replicate 3584 (0xAB : Byte)).length ≤ 3584 ∧ 3584 < (List.replicate 3585 (0xAB : Byte)).length := by
  rw [List.length_replicate, List.length_replicate]
  exact ⟨Nat.le_refl _, Nat.lt_succ_self _⟩

theorem witness_load_is_next (image : List Byte) :
    ({ State.reset with schedule := [.load image] } : State).schedule = .load image :: [] := rfl

theorem witness_MemoryStaysCanonical :
    State.reset.memWf = true ∧ ∃ t, step (word 0xFA33 { State.reset with i := 0x300 }) = .next t := ⟨rfl, _, rfl⟩

theorem witness_EveryInstructionKeepsItsFrame : ∃ t, exec (.loadRegisters 15) State.reset = .next t := ⟨_, rfl⟩

theorem witness_ParametersNeverChange : ∃ t, step State.reset = .next t := ⟨_, rfl⟩

theorem witness_PcStaysEvenUnderEvenTargets :
    EvenPc State.reset ∧ EvenTarget (.call 0x300) State.reset ∧ ∃ t, exec (.call 0x300) State.reset = .next t := by
  refine ⟨⟨by decide, fun j h => by simp [State.reset]⟩, ⟨?_, ?_⟩, _, rfl⟩
  · rintro nnn (h | h)
    · cases h
    · cases h; decide
  · rintro nnn h; cases h

theorem witness_ScheduledRunIsTheDriversRun :
    (drive [.step 0, .tick, .keyDown 3, .load [0x12, 0x04], .step 0] State.reset).1 =
      [.ok (some .next), .ok none, .ok none, .ok none, .ok (some (.jump 0x0204))] := by decide

/-- A load that fails is no hindrance. -/
theorem witness_ScheduledRunIsTheDriversRun_load :
    (drive [.load (List.replicate 3585 0xAB), .step 0] State.reset).1 =
      [.loadErr (.programTooLarge 3585 3584), .ok (some .next)] := by
  simp only [drive, respond, Event.loadError, load_oversized]
  rfl

end Sys2Proof.Tests
end

section
/-! Reading one byte through the address check, and the fetch that reads two (spec/20_memory.md rules R210, R212). -/

namespace Sys2Proof.Machine

/-- A byte at an accessible address is read modulo 0x1000 (R210). -/
theorem State.memRead_ok {s : State} {a : Nat} (h : s.params.oobPolicy = .wrap ∨ a < 0x1000) :
    s.memRead a = .ok (s.readByte (a % 0x1000)) := by
  have hr : resolveAddr s.params.oobPolicy a = .ok (a % 0x1000) :=
    resolveAddr_ok (n := 1) (k := 0) (h.imp_right fun ha k hk => by omega) Nat.one_pos
  simp [State.memRead, hr]

/-- Under `Fault` a read out of range reports the address it was given (R210). -/
theorem State.memRead_fault {s : State} {a : Nat} (hp : s.params.oobPolicy = .fault) (ha : 0x1000 ≤ a) :
    s.memRead a = .error (.addressOutOfRange (BitVec.ofNat 16 a)) := by
  simp [State.memRead, resolveAddr, hp, Nat.not_lt.mpr ha]

/-- Where both addresses are accessible, fetch answers the byte at `pc`, then the byte at `pc + 1`. -/
theorem State.fetch_ok {s : State} (h : s.params.oobPolicy = .wrap ∨ s.pc.toNat + 1 < 0x1000) :
    s.fetch = .ok (s.readByte (s.pc.toNat % 0x1000), s.readByte ((s.pc.toNat + 1) % 0x1000)) := by
  have hhi := State.memRead_ok (h.imp_right Nat.lt_of_succ_lt)
  have hlo := State.memRead_ok h
  simp only [State.fetch, hhi, hlo]

/-- Under `Fault` a fetch that reaches 0x1000 or above reports the first such address (R212). -/
theorem State.fetch_fault {s : State} (hp : s.params.oobPolicy = .fault) (h : 0x1000 ≤ s.pc.toNat + 1) :
    s.fetch = .error (.addressOutOfRange (BitVec.ofNat 16 (max s.pc.toNat 0x1000))) := by
  by_cases hpc : 0x1000 ≤ s.pc.toNat
  · have hhi := State.memRead_fault hp hpc
    simp only [State.fetch, hhi, Nat.max_eq_left hpc]
  · have hhi := State.memRead_ok (s := s) (.inr (Nat.not_le.mp hpc))
    have hlo := State.memRead_fault hp h
    have hfirst : s.pc.toNat + 1 = max s.pc.toNat 0x1000 := by omega
    simp only [State.fetch, hhi, hlo, ← hfirst]

/-- Settles O7, from what a fetch answers where both addresses are accessible and where one is not. -/
theorem fetchIsBigEndianAndChecked : Obligations.FetchIsBigEndianAndChecked := by
  unfold Obligations.FetchIsBigEndianAndChecked
  intro s
  refine ⟨fun h => ?inRange, fun hp => State.fetch_ok (.inl hp), fun hp h => ?pcOutOfRange, fun hp h => ?lastAddress⟩
  case inRange =>
    have hf := State.fetch_ok (s := s) (.inr h)
    rwa [Nat.mod_eq_of_lt h, Nat.mod_eq_of_lt (Nat.lt_of_succ_lt h)] at hf
  case pcOutOfRange =>
    have hf := State.fetch_fault hp (Nat.le_succ_of_le h)
    rwa [Nat.max_eq_left h, BitVec.ofNat_toNat, BitVec.setWidth_eq] at hf
  case lastAddress =>
    have hpc : s.pc.toNat = 0x0FFF := by rw [h]; rfl
    have hf := State.fetch_fault hp (by omega)
    rwa [hpc] at hf

end Sys2Proof.Machine
end

section
/-! The frame of an instruction that ends by moving `pc`, a push by its effects, and flow control (spec/41_flow_control.md rules
R422, R424). -/

namespace Sys2Proof.Machine

/-! ### Frames -/

@[simp] theorem State.readByte_finish (s : State) (o : Flow) (a : Nat) : (s.finish o).readByte a = s.readByte a := rfl

theorem Frame.refl (s : State) : Frame [] s s := by simp [Frame, Unchanged, SameDriver]

/-- Moving `pc` adds `pc` to the pieces of state that may differ. -/
theorem Frame.finish {except : List Field} {s t : State} (h : Frame except s t) (o : Flow) :
    Frame (except ++ [.pc]) s (t.finish o) := by
  obtain ⟨hfields, hdriver⟩ := h
  refine ⟨?fields, hdriver⟩
  case fields => simp_all [Unchanged]

/-! ### The return stack -/

/-- With a free slot a push fills slot `sp`, keeps the others and moves `sp` up (R424). -/
theorem State.push_ok {s : State} (a : Word) (h : s.sp.val < 16) :
    ∃ t, s.push a = .ok t ∧ t.stack[s.sp.val] = a ∧ (∀ j (hj : j < 16), j ≠ s.sp.val → t.stack[j] = s.stack[j]) ∧
      t.sp.val = s.sp.val + 1 ∧ Frame [.stack, .sp] s t := by
  obtain ⟨_, hpush⟩ | ⟨hfull, _⟩ := s.push_cases a
  · refine ⟨_, hpush, Vector.getElem_set_self h, fun j hj hne => Vector.getElem_set_ne h hj hne.symm, rfl, ?frame⟩
    case frame => simp [Frame, Unchanged, SameDriver, State.getV, State.readByte]
  · omega

/-- With all 16 slots in use a push overflows (R424). -/
theorem State.push_full {s : State} (a : Word) (h : s.sp.val = 16) : s.push a = .error .stackOverflow := by
  obtain ⟨hfree, _⟩ | ⟨_, hpush⟩ := s.push_cases a
  · omega
  · exact hpush

/-! ### Jump and Call -/

/-- A target zero-extended from 12 bits is the same number (R19). -/
theorem zext16_addr_toNat (nnn : Addr) : (zext16 nnn).toNat = nnn.toNat := BitVec.toNat_setWidth_of_le (by decide)

theorem decodeWord_jump (nnn : Addr) : decodeWord (encodeNNN 0x1#4 nnn) = .instr (.jump nnn) := by
  simp [decodeWord]

theorem decodeWord_call (nnn : Addr) : decodeWord (encodeNNN 0x2#4 nnn) = .instr (.call nnn) := by
  simp [decodeWord]

theorem exec_jump (nnn : Addr) (s : State) : exec (.jump nnn) s = .next (s.finish (.jump (zext16 nnn))) := rfl

theorem exec_call_of_push_ok {s t : State} (nnn : Addr) (h : s.push (s.pc + 2#16) = .ok t) :
    exec (.call nnn) s = .next (t.finish (.jump (zext16 nnn))) := by
  simp only [exec, execCall, h]

theorem exec_call_of_push_error {s : State} {f : Fault} (nnn : Addr) (h : s.push (s.pc + 2#16) = .error f) :
    exec (.call nnn) s = .fault f := by
  simp only [exec, execCall, h, raise]

/-- Settles O12: the state is unchanged but for the `pc` that the outcome moves. -/
theorem jumpGoesToNnn : Obligations.JumpGoesToNnn := by
  unfold Obligations.JumpGoesToNnn
  intro nnn s
  exact ⟨decodeWord_jump nnn, _, exec_jump nnn s, zext16_addr_toNat nnn, (Frame.refl s).finish _⟩

/-- Settles O13, from what a push of `pc + 2` does where a slot is free and where none is. -/
theorem callPushesReturnAddress : Obligations.CallPushesReturnAddress := by
  unfold Obligations.CallPushesReturnAddress
  intro nnn s
  refine ⟨decodeWord_call nnn, fun hfree => ?freeSlot, fun hfull => exec_call_of_push_error nnn (State.push_full _ hfull)⟩
  case freeSlot =>
    obtain ⟨t, hpush, hslot, hkept, hsp, hframe⟩ := State.push_ok (s.pc + 2#16) hfree
    have hreturn : t.stack[s.sp.val].toNat = (s.pc.toNat + 2) % 0x10000 := by rw [hslot, BitVec.toNat_add]; rfl
    exact ⟨_, exec_call_of_push_ok nnn hpush, hreturn, hkept, hsp, zext16_addr_toNat nnn, hframe.finish _⟩

end Sys2Proof.Machine
end

section
/-! Conditional skips on registers and immediates (spec/42_conditional_skip.md rules R440 to R448). -/

namespace Sys2Proof.Machine

/-! ### Decoding -/

theorem decodeWord_skipIfEq (x : Reg) (kk : Byte) : decodeWord (encodeXKK 0x3#4 x kk) = .instr (.skipIfEq x kk) := by
  simp [decodeWord]

theorem decodeWord_skipIfNe (x : Reg) (kk : Byte) : decodeWord (encodeXKK 0x4#4 x kk) = .instr (.skipIfNe x kk) := by
  simp [decodeWord]

theorem decodeWord_skipIfRegEq (x y : Reg) : decodeWord (encodeXYN 0x5#4 x y 0x0#4) = .instr (.skipIfRegEq x y) := by
  simp [decodeWord]

theorem decodeWord_skipIfRegNe (x y : Reg) : decodeWord (encodeXYN 0x9#4 x y 0x0#4) = .instr (.skipIfRegNe x y) := by
  simp [decodeWord]

/-! ### The test each skip makes -/

theorem exec_skipIfEq (x : Reg) (kk : Byte) (s : State) :
    exec (.skipIfEq x kk) s = .next (s.finish (.skipIf (s.getV x == kk))) := rfl

theorem exec_skipIfNe (x : Reg) (kk : Byte) (s : State) :
    exec (.skipIfNe x kk) s = .next (s.finish (.skipIf (s.getV x != kk))) := rfl

theorem exec_skipIfRegEq (x y : Reg) (s : State) :
    exec (.skipIfRegEq x y) s = .next (s.finish (.skipIf (s.getV x == s.getV y))) := rfl

theorem exec_skipIfRegNe (x y : Reg) (s : State) :
    exec (.skipIfRegNe x y) s = .next (s.finish (.skipIf (s.getV x != s.getV y))) := rfl

/-! ### Where a skip leaves `pc` -/

/-- A skip on equality moves `pc` by 4 when its operands are equal and by 2 when they differ (R440). -/
theorem State.finish_skipIf_beq_pc (s : State) (a b : Byte) :
    (s.finish (.skipIf (a == b))).pc = s.pc + (if a = b then 4 else 2) := by
  by_cases h : a = b <;> simp [h]

/-- A skip on inequality moves `pc` by 2 when its operands are equal and by 4 when they differ (R440). -/
theorem State.finish_skipIf_bne_pc (s : State) (a b : Byte) :
    (s.finish (.skipIf (a != b))).pc = s.pc + (if a = b then 2 else 4) := by
  by_cases h : a = b <;> simp [h]

/-- Settles O17: each skip is its test's outcome and nothing else, so only the `pc` that the outcome moves is written. -/
theorem skipsCompareAndSkip : Obligations.SkipsCompareAndSkip := by
  unfold Obligations.SkipsCompareAndSkip
  intro x y kk s
  have writesOnlyPc (o : Flow) : Frame [.pc] s (s.finish o) := (Frame.refl s).finish o
  refine ⟨decodeWord_skipIfEq x kk, decodeWord_skipIfNe x kk, decodeWord_skipIfRegEq x y, decodeWord_skipIfRegNe x y,
    ?skipIfEq, ?skipIfNe, ?skipIfRegEq, ?skipIfRegNe⟩
  case skipIfEq => exact ⟨_, exec_skipIfEq x kk s, s.finish_skipIf_beq_pc _ _, writesOnlyPc _⟩
  case skipIfNe => exact ⟨_, exec_skipIfNe x kk s, s.finish_skipIf_bne_pc _ _, writesOnlyPc _⟩
  case skipIfRegEq => exact ⟨_, exec_skipIfRegEq x y s, s.finish_skipIf_beq_pc _ _, writesOnlyPc _⟩
  case skipIfRegNe => exact ⟨_, exec_skipIfRegNe x y s, s.finish_skipIf_bne_pc _ _, writesOnlyPc _⟩

end Sys2Proof.Machine
end

section
/-! Instructions that write a result and a flag through `WriteRF` of R461, and AddReg and SubtractReg (spec/43_arithmetic.md
rules R474, R476). -/

namespace Sys2Proof.Machine

/-! ### `WriteRF` -/

/-- `WriteRF` leaves the result in `V[x]` and the flag in `V[15]`, for `x = 15` the one `VF_ORDER` puts last (R461). -/
theorem State.resultAndFlag_writeRF (s : State) (x : Reg) (r g : Byte) :
    ResultAndFlag s (s.writeRF x r g) x r.toNat g.toNat := by
  refine ⟨fun hx => ⟨?result, ?flag⟩, fun _ hflagLast => ?flagLast, fun hx hresultLast => ?resultLast, fun y hy => ?kept⟩
  case result => simp [State.getV_writeRF, hx]
  case flag => simp [State.getV_writeRF, hx]
  case flagLast => simp [State.getV_writeRF, hflagLast]
  case resultLast => simp [State.getV_writeRF, hx, hresultLast]
  case kept =>
    obtain ⟨hyx, hyVF⟩ : y ≠ x ∧ y ≠ VF := by simpa using hy
    simp [State.getV_writeRF, hyx, hyVF]

/-- Moving `pc` writes no register. -/
theorem ResultAndFlag.finish {s t : State} {x : Reg} {result flag : Nat} (h : ResultAndFlag s t x result flag) (o : Flow) :
    ResultAndFlag s (t.finish o) x result flag := h

/-- `WriteRF` writes the register file and nothing else. -/
theorem State.frame_writeRF (s : State) (x : Reg) (r g : Byte) : Frame [.v] s (s.writeRF x r g) := by
  simp [Frame, Unchanged, SameDriver, State.readByte]

/-- An instruction that ends in `WriteRF` and `outcome Next` gives its result and its flag, moves `pc` by 2 and writes nothing
else. -/
theorem State.writeRF_finish_next (s : State) (x : Reg) {r g : Byte} {result flag : Nat} (hr : r.toNat = result)
    (hg : g.toNat = flag) :
    ResultAndFlag s ((s.writeRF x r g).finish .next) x result flag ∧ ((s.writeRF x r g).finish .next).pc = s.pc + 2 ∧
      Frame [.v, .pc] s ((s.writeRF x r g).finish .next) := by
  subst hr hg
  have hpc : ((s.writeRF x r g).finish .next).pc = s.pc + 2 := by simp [Flow.apply]
  exact ⟨(s.resultAndFlag_writeRF x r g).finish .next, hpc, (s.frame_writeRF x r g).finish .next⟩

/-! ### Flags and results as numbers -/

theorem flagOf_toNat (test : Bool) : (flagOf test).toNat = if test then 1 else 0 := by
  cases test <;> rfl

theorem carryFlag_toNat (a b : Byte) : (carryFlag a b).toNat = if a.toNat + b.toNat > 255 then 1 else 0 := by
  simp [carryFlag, flagOf_toNat]

theorem noBorrowFlag_toNat (a b : Byte) : (noBorrowFlag a b).toNat = if a.toNat ≥ b.toNat then 1 else 0 := by
  simp [noBorrowFlag, flagOf_toNat]

/-- The difference of two bytes, with 256 added before the subtraction so that it is one of natural numbers. -/
theorem byte_sub_toNat (a b : Byte) : (a - b).toNat = (a.toNat + 256 - b.toNat) % 256 := by
  have := b.isLt
  rw [BitVec.toNat_sub]
  congr 1
  omega

/-! ### AddReg and SubtractReg -/

theorem decodeWord_addReg (x y : Reg) : decodeWord (encodeXYN 0x8#4 x y 0x4#4) = .instr (.addReg x y) := by
  simp [decodeWord, decodeGroup8]

theorem decodeWord_subtractReg (x y : Reg) : decodeWord (encodeXYN 0x8#4 x y 0x5#4) = .instr (.subtractReg x y) := by
  simp [decodeWord, decodeGroup8]

theorem exec_addReg (x y : Reg) (s : State) :
    exec (.addReg x y) s =
      .next ((s.writeRF x (s.getV x + s.getV y) (carryFlag (s.getV x) (s.getV y))).finish .next) := rfl

theorem exec_subtractReg (x y : Reg) (s : State) :
    exec (.subtractReg x y) s =
      .next ((s.writeRF x (s.getV x - s.getV y) (noBorrowFlag (s.getV x) (s.getV y))).finish .next) := rfl

/-- Settles O19: `WriteRF` of the sum of two bytes, which is modulo 256, and of the carry. -/
theorem addRegSumAndCarry : Obligations.AddRegSumAndCarry := by
  unfold Obligations.AddRegSumAndCarry
  intro x y s
  exact ⟨decodeWord_addReg x y, _, exec_addReg x y s,
    s.writeRF_finish_next x (BitVec.toNat_add _ _) (carryFlag_toNat _ _)⟩

/-- Settles O20: `WriteRF` of the difference of two bytes, which is modulo 256, and of not-borrow. -/
theorem subtractRegDifferenceAndNotBorrow : Obligations.SubtractRegDifferenceAndNotBorrow := by
  unfold Obligations.SubtractRegDifferenceAndNotBorrow
  intro x y s
  exact ⟨decodeWord_subtractReg x y, _, exec_subtractReg x y s,
    s.writeRF_finish_next x (byte_sub_toNat _ _) (noBorrowFlag_toNat _ _)⟩

end Sys2Proof.Machine
end

section
/-! Replacing the framebuffer as a whole, and ClearDisplay (spec/44_display.md rule R500). -/

namespace Sys2Proof.Machine

/-- Replacing the framebuffer leaves every other piece of state as it was. -/
theorem State.frame_replaceFb (s : State) (fb : Framebuffer) : Frame [.fb] s { s with fb := fb } := by
  simp [Frame, Unchanged, SameDriver, State.getV, State.readByte]

theorem decodeWord_clearDisplay : decodeWord 0x00E0#16 = .instr .clearDisplay := by decide

theorem exec_clearDisplay (s : State) :
    exec .clearDisplay s = .next ({ s with fb := Framebuffer.clear }.finish .next) := rfl

/-- Settles O25: the framebuffer is replaced by the clear one, whose pixels are all 0, and `outcome Next` moves `pc` by 2. -/
theorem clearDisplayClearsEveryPixel : Obligations.ClearDisplayClearsEveryPixel := by
  unfold Obligations.ClearDisplayClearsEveryPixel
  refine ⟨decodeWord_clearDisplay, fun s => ⟨_, exec_clearDisplay s, ?pixels, ?pc, ?frame⟩⟩
  case pixels => exact Framebuffer.pixel_clear
  case pc => simp [Flow.apply]
  case frame => exact (s.frame_replaceFb Framebuffer.clear).finish .next

end Sys2Proof.Machine
end

section
/-! Writing one register or one timer, and the instructions that move a byte between `V[x]` and a timer (spec/46_timers.md rules
R540, R542, R544). -/

namespace Sys2Proof.Machine

/-! ### What one write leaves unchanged -/

/-- Writing a register leaves every other register as it was. -/
theorem State.regsKept_setV (s : State) (x : Reg) (b : Byte) : RegsKept [x] s (s.setV x b) := by
  intro y hy
  have hyx : y ≠ x := by simpa using hy
  simp [hyx]

/-- Writing a register writes the register file and nothing else. -/
theorem State.frame_setV (s : State) (x : Reg) (b : Byte) : Frame [.v] s (s.setV x b) := by
  simp [Frame, Unchanged, SameDriver, State.readByte]

/-- Writing the delay timer leaves every other piece of state as it was. -/
theorem State.frame_replaceDt (s : State) (b : Byte) : Frame [.dt] s { s with dt := b } := by
  simp [Frame, Unchanged, SameDriver, State.getV, State.readByte]

/-- Writing the sound timer leaves every other piece of state as it was. -/
theorem State.frame_replaceSt (s : State) (b : Byte) : Frame [.st] s { s with st := b } := by
  simp [Frame, Unchanged, SameDriver, State.getV, State.readByte]

/-- Moving `pc` writes no register. -/
theorem RegsKept.finish {except : List Reg} {s t : State} (h : RegsKept except s t) (o : Flow) :
    RegsKept except s (t.finish o) := h

/-! ### LoadFromDelay, StoreToDelay and StoreToSound -/

theorem decodeWord_loadFromDelay (x : Reg) : decodeWord (encodeXKK 0xF#4 x 0x07#8) = .instr (.loadFromDelay x) := by
  simp [decodeWord, decodeGroupF]

theorem decodeWord_storeToDelay (x : Reg) : decodeWord (encodeXKK 0xF#4 x 0x15#8) = .instr (.storeToDelay x) := by
  simp [decodeWord, decodeGroupF]

theorem decodeWord_storeToSound (x : Reg) : decodeWord (encodeXKK 0xF#4 x 0x18#8) = .instr (.storeToSound x) := by
  simp [decodeWord, decodeGroupF]

theorem exec_loadFromDelay (x : Reg) (s : State) :
    exec (.loadFromDelay x) s = .next ((s.setV x s.dt).finish .next) := rfl

theorem exec_storeToDelay (x : Reg) (s : State) :
    exec (.storeToDelay x) s = .next ({ s with dt := s.getV x }.finish .next) := rfl

theorem exec_storeToSound (x : Reg) (s : State) :
    exec (.storeToSound x) s = .next ({ s with st := s.getV x }.finish .next) := rfl

/-- Settles O33: each instruction is one write, of a register or of a timer, followed by `outcome Next`, which moves `pc` by 2. -/
theorem timerInstructionsMoveValues : Obligations.TimerInstructionsMoveValues := by
  unfold Obligations.TimerInstructionsMoveValues
  intro x s
  refine ⟨decodeWord_loadFromDelay x, decodeWord_storeToDelay x, decodeWord_storeToSound x,
    ⟨_, exec_loadFromDelay x s, ?loadFromDelay⟩, ⟨_, exec_storeToDelay x s, ?storeToDelay⟩,
    ⟨_, exec_storeToSound x s, ?storeToSound⟩⟩
  case loadFromDelay =>
    have hload : ((s.setV x s.dt).finish .next).getV x = s.dt := by simp
    exact ⟨hload, (s.regsKept_setV x s.dt).finish .next, Flow.apply_next s.pc, (s.frame_setV x s.dt).finish .next⟩
  case storeToDelay =>
    exact ⟨State.finish_dt _ _, Flow.apply_next s.pc, (s.frame_replaceDt (s.getV x)).finish .next⟩
  case storeToSound =>
    exact ⟨State.finish_st _ _, Flow.apply_next s.pc, (s.frame_replaceSt (s.getV x)).finish .next⟩

end Sys2Proof.Machine
end

section
/-! System words (spec/48_system.md rules R600, R602): SysCall, the invalid space as the decoder and the opcode map give it, and the
one way a step ends in `BadInstruction`. -/

namespace Sys2Proof.Machine

/-! ### SysCall -/

/-- A word of the `0` group is SysCall, unless it is one of the two exact words (R308). -/
theorem decodeWord_sysCall {nnn : Addr} (hclear : nnn ≠ 0x0E0#12) (hret : nnn ≠ 0x0EE#12) :
    decodeWord (encodeNNN 0x0#4 nnn) = .instr (.sysCall nnn) := by
  have differs {a : Addr} (h : nnn ≠ a) : encodeNNN 0x0#4 nnn ≠ encodeNNN 0x0#4 a := fun he =>
    h (by simpa using congrArg (opField 0 12) he)
  have notClear : encodeNNN 0x0#4 nnn ≠ 0x00E0#16 := differs hclear
  have notRet : encodeNNN 0x0#4 nnn ≠ 0x00EE#16 := differs hret
  simp [decodeWord, decodeGroup0, notClear, notRet]

theorem exec_sysCall (nnn : Addr) (s : State) : exec (.sysCall nnn) s = .next (s.finish .next) := rfl

/-- Settles O41: the two exact words set aside, SysCall is `outcome Next` and nothing else, so only `pc` moves. -/
theorem sysCallIsANoOp : Obligations.SysCallIsANoOp := by
  unfold Obligations.SysCallIsANoOp
  intro nnn s hclear hret
  exact ⟨decodeWord_sysCall hclear hret, _, exec_sysCall nnn s, Flow.apply_next s.pc, (Frame.refl s).finish .next⟩

/-! ### The invalid space, as the decoder finds it -/

/-- The invalid words by leading nibble (R312); for the `8` group the low nibbles that remain when those of its nine rows are taken
out. -/
def InvalidSpace (op : Word) : Prop :=
  match (opField 12 4 op).toNat with
  | 0x5 | 0x9 => opField 0 4 op ≠ 0x0#4
  | 0x8 => opField 0 4 op ∉ [0x0#4, 0x1#4, 0x2#4, 0x3#4, 0x4#4, 0x5#4, 0x6#4, 0x7#4, 0xE#4]
  | 0xE => opField 0 8 op ∉ [0x9E#8, 0xA1#8]
  | 0xF => opField 0 8 op ∉ [0x07#8, 0x0A#8, 0x15#8, 0x18#8, 0x1E#8, 0x29#8, 0x33#8, 0x55#8, 0x65#8]
  | _ => False

theorem decodeGroup0_ne_invalid (op op' : Word) : decodeGroup0 op ≠ .invalid op' := by
  unfold decodeGroup0
  split_ifs <;> nofun

theorem decodeGroup8_eq_invalid_iff (op op' : Word) (x y : Reg) :
    decodeGroup8 op x y = .invalid op' ↔
      op = op' ∧ opField 0 4 op ∉ [0x0#4, 0x1#4, 0x2#4, 0x3#4, 0x4#4, 0x5#4, 0x6#4, 0x7#4, 0xE#4] := by
  unfold decodeGroup8
  split <;> simp_all [BitVec.toNat_eq]

theorem decodeGroupE_eq_invalid_iff (op op' : Word) (x : Reg) :
    decodeGroupE op x = .invalid op' ↔ op = op' ∧ opField 0 8 op ∉ [0x9E#8, 0xA1#8] := by
  unfold decodeGroupE
  split <;> simp_all [BitVec.toNat_eq]

theorem decodeGroupF_eq_invalid_iff (op op' : Word) (x : Reg) :
    decodeGroupF op x = .invalid op' ↔
      op = op' ∧ opField 0 8 op ∉ [0x07#8, 0x0A#8, 0x15#8, 0x18#8, 0x1E#8, 0x29#8, 0x33#8, 0x55#8, 0x65#8] := by
  unfold decodeGroupF
  split <;> simp_all [BitVec.toNat_eq]

/-- The decoder rejects exactly the words of the invalid space, and its marker carries the word itself (R306, R309). -/
theorem decodeWord_eq_invalid_iff (op op' : Word) : decodeWord op = .invalid op' ↔ op = op' ∧ InvalidSpace op := by
  have hgroup := (opField 12 4 op).isLt
  unfold decodeWord InvalidSpace
  generalize (opField 12 4 op).toNat = group at hgroup
  interval_cases group <;>
    simp [decodeGroup0_ne_invalid, decodeGroup8_eq_invalid_iff, decodeGroupE_eq_invalid_iff, decodeGroupF_eq_invalid_iff,
      ite_eq_iff, and_comm]

/-! ### The invalid space, as the opcode map leaves it -/

theorem opField_getLsbD (lo width : Nat) (op : Word) (i : Nat) :
    (opField lo width op).getLsbD i = (decide (i < width) && op.getLsbD (lo + i)) := by
  simp [opField]

/-- A mask that keeps the group nibble and the `k` low bits tells words apart by those two fields. -/
theorem and_mask_eq_iff {op w mask : Word} (k : Nat)
    (hmask : ∀ i < 16, mask.getLsbD i = (decide (i < k) || decide (12 ≤ i))) (hw : w &&& mask = w) :
    op &&& mask = w ↔ (opField 12 4 op).toNat = (opField 12 4 w).toNat ∧ opField 0 k op = opField 0 k w := by
  rw [BitVec.toNat_inj]
  constructor
  case mp =>
    rintro rfl
    constructor <;> refine BitVec.eq_of_getLsbD_eq fun i hi => ?_ <;> simp [opField_getLsbD] <;> grind
  case mpr =>
    rintro ⟨hgroup, hlow⟩
    rw [← hw]
    ext i hi
    have hgroupBit := congrArg (·.getLsbD (i - 12)) hgroup
    have hlowBit := congrArg (·.getLsbD i) hlow
    simp only [opField_getLsbD] at hgroupBit hlowBit
    grind

/-- The mask of formats NNN, XKK and XYN. -/
theorem and_F000_eq_iff {op w : Word} (hw : w &&& 0xF000#16 = w) :
    op &&& 0xF000#16 = w ↔ (opField 12 4 op).toNat = (opField 12 4 w).toNat :=
  (and_mask_eq_iff 0 (by decide) hw).trans (and_iff_left (Subsingleton.elim _ _))

/-- The mask of format XY. -/
theorem and_F00F_eq_iff {op w : Word} (hw : w &&& 0xF00F#16 = w) :
    op &&& 0xF00F#16 = w ↔ (opField 12 4 op).toNat = (opField 12 4 w).toNat ∧ opField 0 4 op = opField 0 4 w :=
  and_mask_eq_iff 4 (by decide) hw

/-- The mask of format X. -/
theorem and_F0FF_eq_iff {op w : Word} (hw : w &&& 0xF0FF#16 = w) :
    op &&& 0xF0FF#16 = w ↔ (opField 12 4 op).toNat = (opField 12 4 w).toNat ∧ opField 0 8 op = opField 0 8 w :=
  and_mask_eq_iff 8 (by decide) hw

/-- The mask of the two exact words. -/
theorem and_FFFF_eq_iff {op w : Word} (hw : w &&& 0xFFFF#16 = w) :
    op &&& 0xFFFF#16 = w ↔ (opField 12 4 op).toNat = (opField 12 4 w).toNat ∧ opField 0 12 op = opField 0 12 w :=
  and_mask_eq_iff 12 (by decide) hw

/-- The words that match no row are those of the invalid space: group by group, only the rows of that group say anything (R312). -/
theorem matchesNoRow_iff (op : Word) : (∀ row ∈ opcodeMap, op &&& row.1 ≠ row.2) ↔ InvalidSpace op := by
  have hgroup := (opField 12 4 op).isLt
  unfold InvalidSpace
  simp only [opcodeMap, List.cons_append, List.nil_append, List.forall_mem_cons, ne_eq, and_F000_eq_iff, and_F00F_eq_iff,
    and_F0FF_eq_iff, and_FFFF_eq_iff, BitVec.reduceAnd]
  generalize (opField 12 4 op).toNat = group at hgroup
  interval_cases group <;> simp [opField]

/-- Two bytes make a word exactly when they are its own (R300). -/
theorem append_eq_word_iff (hi lo : Byte) (op : Word) : hi ++ lo = op ↔ hi = op.hi ∧ lo = op.lo := by
  constructor
  · rintro rfl; simp
  · rintro ⟨rfl, rfl⟩; simp

/-- Two bytes decode to an invalid word when they are the bytes of a word that matches no row (R309, R312). -/
theorem decode_eq_invalid_iff (hi lo : Byte) (op : Word) :
    decode hi lo = .invalid op ↔ (hi = op.hi ∧ lo = op.lo) ∧ ∀ row ∈ opcodeMap, op &&& row.1 ≠ row.2 := by
  rw [matchesNoRow_iff, ← append_eq_word_iff, decode, decodeWord_eq_invalid_iff]
  exact and_congr_right fun h => by rw [h]

/-! ### Which errors an instruction and a fetch raise -/

/-- Fetch answers two bytes, or reports an address out of range (R212). -/
theorem State.fetch_cases (s : State) :
    (∃ hi lo, s.fetch = .ok (hi, lo)) ∨ ∃ a, s.fetch = .error (.addressOutOfRange a) := by
  by_cases h : s.params.oobPolicy = .wrap ∨ s.pc.toNat + 1 < 0x1000
  case pos => exact .inl ⟨_, _, State.fetch_ok h⟩
  case neg =>
    obtain ⟨hp, hpc⟩ := not_or.mp h
    have hfault : s.params.oobPolicy = .fault := by cases hq : s.params.oobPolicy <;> simp_all
    exact .inr ⟨_, State.fetch_fault hfault (Nat.not_lt.mp hpc)⟩

/-- No instruction raises `BadInstruction`: where an operation that can fail does, its error is another (R700). -/
theorem exec_ne_badInstruction (i : Instr) (s : State) (op : Word) : exec i s ≠ .fault (.badInstruction op) := by
  cases i
  case call nnn =>
    obtain ⟨_, hpush⟩ | ⟨_, hpush⟩ := s.push_cases (s.pc + 2#16) <;> simp [exec, execCall, raise, hpush]
  case ret => obtain ⟨_, hpop⟩ | ⟨_, hpop⟩ := s.pop_cases <;> simp [exec, execReturn, raise, hpop]
  case drawSprite x y n =>
    obtain hload | hload := s.loadBytes_cases s.i.toNat n.toNat <;> simp [exec, execDrawSprite, raise, hload]
  case skipIfKeyDown x =>
    obtain ⟨_, hkey⟩ | ⟨_, _, hkey⟩ | ⟨_, _, hkey⟩ := keyIndex_cases s.params.keyPolicy (s.getV x) <;>
      simp [exec, execSkipIfKeyDown, flowSkipIfKeyDown, raise, hkey]
  case skipIfKeyUp x =>
    obtain ⟨_, hkey⟩ | ⟨_, _, hkey⟩ | ⟨_, _, hkey⟩ := keyIndex_cases s.params.keyPolicy (s.getV x) <;>
      simp [exec, execSkipIfKeyUp, flowSkipIfKeyUp, raise, hkey]
  case storeBcd x =>
    obtain hstore | hstore := s.storeBytes_cases s.i.toNat (bcdDigits (s.getV x)) <;> simp [exec, execStoreBcd, raise, hstore]
  case storeRegisters x =>
    obtain hstore | hstore := s.storeBytes_cases s.i.toNat (s.getVs x) <;> simp [exec, execStoreRegisters, raise, hstore]
  case loadRegisters x =>
    obtain hload | hload := s.loadBytes_cases s.i.toNat (x.toNat + 1) <;> simp [exec, execLoadRegisters, raise, hload]
  case addToIndex x => cases hv : s.params.indexVf <;> simp [exec, execAddToIndex, hv]
  -- every other instruction answers a next state, whatever the state
  all_goals exact nofun

/-! ### How a step ends in `BadInstruction` -/

/-- Decode and dispatch raise `BadInstruction` for an invalid word alone (R602). -/
theorem execDecoded_eq_badInstruction_iff (d : Decoded) (s : State) (op : Word) :
    execDecoded d s = .fault (.badInstruction op) ↔ d = .invalid op := by
  cases d with
  | instr i => simp [execDecoded, exec_ne_badInstruction]
  | invalid op' => simp [execDecoded, execInvalid, raise]

/-- The engine raises `BadInstruction` exactly when it runs and fetches an invalid word. -/
theorem engineStep_eq_badInstruction_iff (s : State) (op : Word) :
    engineStep s = .fault (.badInstruction op) ↔
      s.wait = .running ∧ ∃ hi lo, s.fetch = .ok (hi, lo) ∧ decode hi lo = .invalid op := by
  cases hw : s.wait with
  | awaitingKey r => simp [engineStep, hw]
  | running =>
    obtain ⟨hi, lo, hf⟩ | ⟨a, hf⟩ := s.fetch_cases
    · simp [engineStep, hw, hf, execDecoded_eq_badInstruction_iff]
    · simp [engineStep, hw, hf, raise]

/-- Only an event that is a step of the engine ends in an error, and in the engine's. -/
theorem step_eq_fault_iff (s : State) (f : Fault) : step s = .fault f ↔ StepIsNext s ∧ engineStep s = .fault f := by
  have hretire : mapNext State.retireStep (engineStep s) = .fault f ↔ engineStep s = .fault f := by
    cases engineStep s <;> simp [mapNext]
  cases hs : s.schedule with
  | nil => simp [step, nextEvent, StepIsNext, hs, hretire]
  | cons e rest => cases e <;> simp [step, nextEvent, StepIsNext, hs, hretire]

/-- Settles O9: only a step of the running engine ends in `BadInstruction`, and only where the decoder rejects the fetched bytes. -/
theorem invalidWordRaisesBadInstruction : Obligations.InvalidWordRaisesBadInstruction := by
  unfold Obligations.InvalidWordRaisesBadInstruction
  intro s op
  rw [step_eq_fault_iff, engineStep_eq_badInstruction_iff]
  simp only [decode_eq_invalid_iff]
  constructor
  · rintro ⟨hstep, hrun, _, _, hfetch, ⟨rfl, rfl⟩, hinvalid⟩
    exact ⟨hstep, hrun, hfetch, hinvalid⟩
  · rintro ⟨hstep, hrun, hfetch, hinvalid⟩
    exact ⟨hstep, hrun, _, _, hfetch, ⟨rfl, rfl⟩, hinvalid⟩

end Sys2Proof.Machine
end

section
/-! Decoding and encoding are inverse to each other, and agree with the opcode map (spec/30_encoding.md rules R303 to R312). -/

namespace Sys2Proof

open Sys2Proof.Machine

/-! ### Decoding an encoded word -/

/-- The decoder reads an instruction back from its word: the group nibble, and in the `8`, `E` and `F` groups the low nibble or byte,
select the variant, and the fields are its operands. -/
theorem decodeWord_encode {i : Instr} (hi : i.wellFormed = true) : decodeWord (encode i) = .instr i := by
  cases i
  case clearDisplay => exact decodeWord_clearDisplay
  case ret => decide
  case sysCall nnn =>
    obtain ⟨hclear, hret⟩ : nnn ≠ 0x0E0#12 ∧ nnn ≠ 0x0EE#12 := by simpa [Instr.wellFormed] using hi
    exact decodeWord_sysCall hclear hret
  all_goals simp [encode, decodeWord, decodeGroup8, decodeGroupE, decodeGroupF]

/-- Settles O1: the two bytes of the encoded word are that word, which decodes to the instruction. -/
theorem decodeOfEncodedInstruction : Obligations.DecodeOfEncodedInstruction := by
  unfold Obligations.DecodeOfEncodedInstruction
  intro i hi
  rw [decode, Word.hi_append_lo, decodeWord_encode hi]

/-! ### Encoding a decoded word -/

theorem encodeNNN_opField (op : Word) : encodeNNN (opField 12 4 op) (opField 0 12 op) = op := by
  ext i h
  simp only [encodeNNN, opField]
  grind

theorem encodeXKK_opField (op : Word) : encodeXKK (opField 12 4 op) (opField 8 4 op) (opField 0 8 op) = op := by
  ext i h
  simp only [encodeXKK, opField]
  grind

theorem encodeXYN_opField (op : Word) :
    encodeXYN (opField 12 4 op) (opField 8 4 op) (opField 4 4 op) (opField 0 4 op) = op := by
  ext i h
  simp only [encodeXYN, opField]
  grind

/-- In the `0` group the word says which of the three instructions it is, and SysCall is none of the two exact words. -/
theorem encode_of_decodeGroup0 {op : Word} {i : Instr} (hgroup : opField 12 4 op = 0x0#4) (h : decodeGroup0 op = .instr i) :
    i.wellFormed = true ∧ encode i = op := by
  have hop : encodeNNN 0x0#4 (opField 0 12 op) = op := by rw [← hgroup, encodeNNN_opField]
  unfold decodeGroup0 at h
  split_ifs at h with hclear hret <;> cases h
  · exact ⟨rfl, hclear.symm⟩
  · exact ⟨rfl, hret.symm⟩
  · have notClear : opField 0 12 op ≠ 0x0E0#12 := fun e => hclear (by rw [← hop, e]; rfl)
    have notRet : opField 0 12 op ≠ 0x0EE#12 := fun e => hret (by rw [← hop, e]; rfl)
    exact ⟨by simp [Instr.wellFormed, notClear, notRet], hop⟩

/-- In the `8` group the low nibble is the one its row gives. -/
theorem encode_of_decodeGroup8 {op : Word} {x y : Reg} {i : Instr} (h : decodeGroup8 op x y = .instr i) :
    i.wellFormed = true ∧ encode i = encodeXYN 0x8#4 x y (opField 0 4 op) := by
  unfold decodeGroup8 at h
  split at h <;> cases h <;> exact ⟨rfl, congrArg (encodeXYN 0x8#4 x y) (BitVec.eq_of_toNat_eq (by simp_all))⟩

/-- In the `E` group the low byte is the one its row gives. -/
theorem encode_of_decodeGroupE {op : Word} {x : Reg} {i : Instr} (h : decodeGroupE op x = .instr i) :
    i.wellFormed = true ∧ encode i = encodeXKK 0xE#4 x (opField 0 8 op) := by
  unfold decodeGroupE at h
  split at h <;> cases h <;> exact ⟨rfl, congrArg (encodeXKK 0xE#4 x) (BitVec.eq_of_toNat_eq (by simp_all))⟩

/-- In the `F` group the low byte is the one its row gives. -/
theorem encode_of_decodeGroupF {op : Word} {x : Reg} {i : Instr} (h : decodeGroupF op x = .instr i) :
    i.wellFormed = true ∧ encode i = encodeXKK 0xF#4 x (opField 0 8 op) := by
  unfold decodeGroupF at h
  split at h <;> cases h <;> exact ⟨rfl, congrArg (encodeXKK 0xF#4 x) (BitVec.eq_of_toNat_eq (by simp_all))⟩

/-- In the `5` and `9` groups the low nibble is 0, or the word is invalid. -/
theorem eq_of_lowNibbleZero {op : Word} {i j : Instr}
    (h : (if opField 0 4 op = 0x0#4 then Decoded.instr j else .invalid op) = .instr i) : opField 0 4 op = 0x0#4 ∧ j = i := by
  split_ifs at h with hn
  cases h
  exact ⟨hn, rfl⟩

/-- What a word decodes to is well-formed and encodes to that word: group by group, the operands are the word's own fields. -/
theorem encode_of_decodeWord {op : Word} {i : Instr} (h : decodeWord op = .instr i) : i.wellFormed = true ∧ encode i = op := by
  have hNNN := encodeNNN_opField op
  have hXKK := encodeXKK_opField op
  have hXYN := encodeXYN_opField op
  obtain ⟨group, hlt, hgroup⟩ : ∃ group < 16, opField 12 4 op = BitVec.ofNat 4 group :=
    ⟨_, (opField 12 4 op).isLt, by simp⟩
  unfold decodeWord at h
  rw [hgroup] at h hNNN hXKK hXYN
  -- the groups in order, `0` to `F`
  interval_cases group
  · exact encode_of_decodeGroup0 hgroup h
  · cases h; exact ⟨rfl, hNNN⟩
  · cases h; exact ⟨rfl, hNNN⟩
  · cases h; exact ⟨rfl, hXKK⟩
  · cases h; exact ⟨rfl, hXKK⟩
  · obtain ⟨hn, rfl⟩ := eq_of_lowNibbleZero h
    rw [hn] at hXYN
    exact ⟨rfl, hXYN⟩
  · cases h; exact ⟨rfl, hXKK⟩
  · cases h; exact ⟨rfl, hXKK⟩
  · exact hXYN ▸ encode_of_decodeGroup8 h
  · obtain ⟨hn, rfl⟩ := eq_of_lowNibbleZero h
    rw [hn] at hXYN
    exact ⟨rfl, hXYN⟩
  · cases h; exact ⟨rfl, hNNN⟩
  · cases h; exact ⟨rfl, hNNN⟩
  · cases h; exact ⟨rfl, hXKK⟩
  · cases h; exact ⟨rfl, hXYN⟩
  · exact hXKK ▸ encode_of_decodeGroupE h
  · exact hXKK ▸ encode_of_decodeGroupF h

/-- Settles O2: the bytes are those of their word, which the decoded instruction encodes to. -/
theorem encodeOfDecodedWord : Obligations.EncodeOfDecodedWord := by
  unfold Obligations.EncodeOfDecodedWord
  intro hi lo i h
  obtain ⟨hwf, henc⟩ := encode_of_decodeWord h
  rw [henc]
  exact ⟨hwf, Word.hi_append hi lo, Word.lo_append hi lo⟩

/-! ### The opcode map -/

/-- The word of an instruction carries the fixed bits of its row (R310). -/
theorem encode_and_rowMask (i : Instr) : encode i &&& i.rowMask = i.rowMatch := by
  cases i with
  | clearDisplay => exact Laws.EncodeRow.clearDisplay
  | ret => exact Laws.EncodeRow.ret
  | sysCall nnn | jump nnn | call nnn | loadIndex nnn | jumpPlusV0 nnn => exact Laws.encodeNNN_mask _ nnn
  | skipIfEq x kk | skipIfNe x kk | loadImmediate x kk | addImmediate x kk | random x kk =>
    exact Laws.encodeXKK_mask _ x kk
  | skipIfRegEq x y | copy x y | or x y | and x y | xor x y | addReg x y | subtractReg x y | shiftRight x y
  | subtractReverse x y | shiftLeft x y | skipIfRegNe x y => exact Laws.encodeXY_mask _ x y _
  | drawSprite x y n => exact Laws.EncodeRow.drawSprite x y n
  | skipIfKeyDown x | skipIfKeyUp x | loadFromDelay x | waitForKey x | storeToDelay x | storeToSound x | addToIndex x
  | loadFontAddress x | storeBcd x | storeRegisters x | loadRegisters x => exact Laws.encodeX_mask _ x _

/-- Every instruction has a row of its own in the opcode map (R310). -/
theorem row_mem_opcodeMap (i : Instr) : (i.rowMask, i.rowMatch) ∈ opcodeMap := by
  cases i <;> exact of_decide_eq_true rfl

/-- Settles O3: the word of two bytes is the encoded word of what they decode to, which carries its row's bits; and the words of the
invalid space are those that match no row. -/
theorem decodeAgreesWithOpcodeMap : Obligations.DecodeAgreesWithOpcodeMap := by
  unfold Obligations.DecodeAgreesWithOpcodeMap
  refine fun hi lo => ⟨fun i h => ⟨?row, row_mem_opcodeMap i⟩, fun op => ?invalid⟩
  case row =>
    obtain ⟨-, henc⟩ := encode_of_decodeWord h
    rw [← henc, encode_and_rowMask]
  case invalid => rw [decode_eq_invalid_iff, ← append_eq_word_iff, eq_comm]

/-- Settles O4, by evaluation of the decoder on each of the ten words. -/
theorem sampleWordsDecode : Obligations.SampleWordsDecode := by
  unfold Obligations.SampleWordsDecode
  decide

end Sys2Proof
end

section
/-! What each update of the state leaves unchanged: the frames from which those of the instructions are put together
(spec/10_state.md rules R101, R126 to R136). -/

namespace Sys2Proof.Machine

/-- What two updates one after the other may write is what either may write. -/
theorem Frame.trans {e e' : List Field} {s t u : State} (h : Frame e s t) (h' : Frame e' t u) : Frame (e ++ e') s u := by
  obtain ⟨hfields, hschedule, hcount⟩ := h
  obtain ⟨hfields', hschedule', hcount'⟩ := h'
  refine ⟨?fields, hschedule'.trans hschedule, hcount'.trans hcount⟩
  case fields => simp_all [Unchanged]

/-- What may write some pieces of state may write more. -/
theorem Frame.mono {e e' : List Field} {s t : State} (h : Frame e s t) (hsub : e ⊆ e') : Frame e' s t := by
  obtain ⟨hfields, hdriver⟩ := h
  have hmem (f : Field) (hf : f ∉ e') : f ∉ e := fun hin => hf (hsub hin)
  refine ⟨?fields, hdriver⟩
  case fields => simp_all [Unchanged]

/-- Where the register file is not written, every register is kept. -/
theorem Frame.regsKept {e : List Field} {s t : State} (h : Frame e s t) (hv : Field.v ∉ e) (except : List Reg) :
    RegsKept except s t := by
  obtain ⟨⟨hregs, -⟩, -⟩ := h
  exact fun x _ => hregs hv x

theorem State.frame_setVs (s : State) (bs : List Byte) : Frame [.v] s (s.setVs bs) := by
  simp [Frame, Unchanged, SameDriver, State.readByte]

theorem State.frame_replaceI (s : State) (a : Word) : Frame [.i] s { s with i := a } := by
  simp [Frame, Unchanged, SameDriver, State.getV, State.readByte]

theorem State.frame_replaceWait (s : State) (w : WaitState) : Frame [.wait] s { s with wait := w } := by
  simp [Frame, Unchanged, SameDriver, State.getV, State.readByte]

theorem State.frame_replaceSp (s : State) (k : Fin 17) : Frame [.sp] s { s with sp := k } := by
  simp [Frame, Unchanged, SameDriver, State.getV, State.readByte]

theorem State.frame_replaceStackSp (s : State) (slots : Vector Word 16) (k : Fin 17) :
    Frame [.stack, .sp] s { s with stack := slots, sp := k } := by
  simp [Frame, Unchanged, SameDriver, State.getV, State.readByte]

theorem State.frame_writeBytes (s : State) (cs : List (Nat × Byte)) : Frame [.mem] s (s.writeBytes cs) := by
  simp [Frame, Unchanged, SameDriver, State.getV]

/-- `WriteRF` keeps every register but `V[x]` and `V[15]` (R461). -/
theorem State.regsKept_writeRF (s : State) (x : Reg) (r g : Byte) : RegsKept [x, VF] s (s.writeRF x r g) := by
  obtain ⟨-, -, -, hkept⟩ := s.resultAndFlag_writeRF x r g
  exact hkept

/-- Loading `n` registers keeps those from `n` on (R570). -/
theorem State.getV_setVs_above (s : State) {bs : List Byte} {y : Reg} (h : bs.length ≤ y.toNat) :
    (s.setVs bs).getV y = s.getV y := by
  rw [State.getV_setVs, dif_neg (Nat.not_lt.mpr h)]

end Sys2Proof.Machine
end

section
/-! Data accesses from `I` on, in full: where every address is accessible and where one is not (spec/20_memory.md rules R210, R211;
spec/60_exceptions.md rule R710). -/

namespace Sys2Proof.Machine

/-- A data access finds every address accessible, or reports the first that is not. -/
theorem accessible_or_fault (s : State) (base n : Nat) :
    Accessible s base n ∨ (s.params.oobPolicy = .fault ∧ 0 < n ∧ 0x1000 < base + n) := by
  obtain ⟨h, -⟩ | ⟨hp, hn, hlast, -⟩ := resolveRange_cases s.params.oobPolicy base n
  · exact .inl h
  · exact .inr ⟨hp, hn, hlast⟩

theorem State.loadBytes_fault {s : State} {base n : Nat} (hp : s.params.oobPolicy = .fault) (hn : 0 < n)
    (hlast : 0x1000 < base + n) :
    s.loadBytes base n = .error (.addressOutOfRange (BitVec.ofNat 16 (max base 0x1000))) := by
  simp only [State.loadBytes, hp, resolveRange_fault hn hlast]

theorem State.storeBytes_fault {s : State} {base : Nat} {bs : List Byte} (hp : s.params.oobPolicy = .fault)
    (hn : 0 < bs.length) (hlast : 0x1000 < base + bs.length) :
    s.storeBytes base bs = .error (.addressOutOfRange (BitVec.ofNat 16 (max base 0x1000))) := by
  simp only [State.storeBytes, hp, resolveRange_fault hn hlast]

/-- The `n` bytes from `base` on, as an accessible load answers them. -/
def State.bytesFrom (s : State) (base n : Nat) : List Byte := (List.range' base n).map fun a => s.readByte (a % 0x1000)

@[simp] theorem State.length_bytesFrom (s : State) (base n : Nat) : (s.bytesFrom base n).length = n := by
  simp [State.bytesFrom]

@[simp] theorem State.getElem_bytesFrom (s : State) (base n k : Nat) (hk : k < (s.bytesFrom base n).length) :
    (s.bytesFrom base n)[k] = s.readByte ((base + k) % 0x1000) := by
  simp [State.bytesFrom]

end Sys2Proof.Machine
end

section
/-! What an instruction does, in full: it completes with its own writes and its own outcome, or raises one of its listed errors
(spec/40_execution_cycle.md rules R404 to R407, spec/60_exceptions.md rules R700, R701). -/

namespace Sys2Proof.Machine

/-- The state an instruction leaves where it completes, but for the move of `pc` that its outcome makes. -/
def effect (i : Instr) (s : State) : State :=
  match i with
  | .clearDisplay => { s with fb := Framebuffer.clear }
  | .ret => { s with sp := s.sp - 1 }
  | .call _ => { s with stack := s.stack.setIfInBounds s.sp.val (s.pc + 2#16), sp := s.sp + 1 }
  | .sysCall _ | .jump _ | .jumpPlusV0 _ | .skipIfEq _ _ | .skipIfNe _ _ | .skipIfRegEq _ _ | .skipIfRegNe _ _
  | .skipIfKeyDown _ | .skipIfKeyUp _ => s
  | .loadImmediate x kk => s.setV x kk
  | .addImmediate x kk => s.setV x (s.getV x + kk)
  | .copy x y => s.setV x (s.getV y)
  | .or x y => s.setV x (s.getV x ||| s.getV y)
  | .and x y => s.setV x (s.getV x &&& s.getV y)
  | .xor x y => s.setV x (s.getV x ^^^ s.getV y)
  | .addReg x y => s.writeRF x (s.getV x + s.getV y) (carryFlag (s.getV x) (s.getV y))
  | .subtractReg x y => s.writeRF x (s.getV x - s.getV y) (noBorrowFlag (s.getV x) (s.getV y))
  | .shiftRight x y => s.writeRF x (s.shiftOperand x y >>> 1) (lsbFlag (s.shiftOperand x y))
  | .subtractReverse x y => s.writeRF x (s.getV y - s.getV x) (noBorrowFlag (s.getV y) (s.getV x))
  | .shiftLeft x y => s.writeRF x (s.shiftOperand x y <<< 1) (msbFlag (s.shiftOperand x y))
  | .random x kk => s.setV x (s.randomByte &&& kk)
  | .loadFromDelay x => s.setV x s.dt
  | .drawSprite x y n =>
    let cv := drawRows (s.getV x) (s.getV y) 0 (s.bytesFrom s.i.toNat n.toNat) { fb := s.fb, collision := false }
    { s with fb := cv.fb }.setV VF (collisionFlag cv.collision)
  | .waitForKey x => { s with wait := .awaitingKey x }
  | .storeToDelay x => { s with dt := s.getV x }
  | .storeToSound x => { s with st := s.getV x }
  | .loadIndex nnn => { s with i := zext16 nnn }
  | .loadFontAddress x => { s with i := zext16 (s.getV x) * 5#16 }
  | .addToIndex x =>
    let sum := s.i.toNat + (s.getV x).toNat
    let t := { s with i := BitVec.ofNat 16 sum }
    if s.params.indexVf = .on then t.setV VF (indexFlag s.params.indexVfLimit sum) else t
  | .storeBcd x => s.writeBytes (storedCells s.i.toNat (bcdDigits (s.getV x)))
  | .storeRegisters x => s.writeBytes (storedCells s.i.toNat (s.getVs x))
  | .loadRegisters x => s.setVs (s.bytesFrom s.i.toNat (x.toNat + 1))

/-! ### The instructions that can fail, where they complete -/

theorem sp_add_one_val {k : Fin 17} (h : k.val < 16) : (k + 1).val = k.val + 1 := by
  rw [Fin.val_add]
  exact Nat.mod_eq_of_lt (by simp; omega)

theorem sp_sub_one_val {k : Fin 17} (h : 0 < k.val) : (k - 1).val = k.val - 1 := by
  simp [Fin.val_sub]
  omega

theorem exec_call_ok {s : State} (nnn : Addr) (h : s.sp.val < 16) :
    exec (.call nnn) s = .next ((effect (.call nnn) s).finish (.jump (zext16 nnn))) := by
  have hsp : (⟨s.sp.val + 1, by omega⟩ : Fin 17) = s.sp + 1 := Fin.ext (sp_add_one_val h).symm
  obtain ⟨_, hpush⟩ | ⟨hfull, -⟩ := s.push_cases (s.pc + 2#16)
  · have hstack : s.stack.set s.sp.val (s.pc + 2#16) h = s.stack.setIfInBounds s.sp.val (s.pc + 2#16) := by
      ext j hj
      simp [Vector.getElem_set, Vector.getElem_setIfInBounds]
    rw [exec_call_of_push_ok nnn hpush, hsp, hstack]; rfl
  · omega

theorem State.pop_ok {s : State} (h : 0 < s.sp.val) :
    s.pop = .ok (s.stack[s.sp.val - 1], effect .ret s) := by
  have hsp : (⟨s.sp.val - 1, by omega⟩ : Fin 17) = s.sp - 1 := Fin.ext (sp_sub_one_val h).symm
  obtain ⟨_, hpop⟩ | ⟨hempty, -⟩ := s.pop_cases
  · rw [hpop, hsp]; rfl
  · omega

theorem State.pop_empty {s : State} (h : s.sp.val = 0) : s.pop = .error .stackUnderflow := by
  obtain ⟨hpos, -⟩ | ⟨-, hpop⟩ := s.pop_cases
  · omega
  · exact hpop

theorem exec_ret_ok {s : State} (h : 0 < s.sp.val) :
    exec .ret s = .next ((effect .ret s).finish (.jump s.stack[s.sp.val - 1])) := by
  simp only [exec, execReturn, State.pop_ok h]

theorem exec_ret_empty {s : State} (h : s.sp.val = 0) : exec .ret s = .fault .stackUnderflow := by
  simp only [exec, execReturn, State.pop_empty h, raise]

theorem exec_drawSprite_ok {s : State} {n : BitVec 4} (x y : Reg) (h : Accessible s s.i.toNat n.toNat) :
    exec (.drawSprite x y n) s = .next ((effect (.drawSprite x y n) s).finish .next) := by
  simp only [exec, execDrawSprite, State.loadBytes_ok h]; rfl

theorem exec_storeBcd_ok {s : State} (x : Reg) (h : Accessible s s.i.toNat 3) :
    exec (.storeBcd x) s = .next ((effect (.storeBcd x) s).finish .next) := by
  simp only [exec, execStoreBcd, State.storeBytes_ok (bs := bcdDigits (s.getV x)) h]; rfl

theorem exec_storeRegisters_ok {s : State} {x : Reg} (h : Accessible s s.i.toNat (x.toNat + 1)) :
    exec (.storeRegisters x) s = .next ((effect (.storeRegisters x) s).finish .next) := by
  rw [← s.getVs_length] at h
  simp only [exec, execStoreRegisters, State.storeBytes_ok h]; rfl

theorem exec_loadRegisters_ok {s : State} {x : Reg} (h : Accessible s s.i.toNat (x.toNat + 1)) :
    exec (.loadRegisters x) s = .next ((effect (.loadRegisters x) s).finish .next) := by
  simp only [exec, execLoadRegisters, State.loadBytes_ok h]; rfl

theorem exec_addToIndex (x : Reg) (s : State) :
    exec (.addToIndex x) s = .next ((effect (.addToIndex x) s).finish .next) := by
  cases hv : s.params.indexVf <;> simp [exec, execAddToIndex, effect, hv]

/-- A key skip whose register names a key, or none, completes with its test's outcome (R520, R522, R526). -/
theorem exec_keySkips_ok {s : State} {x : Reg} {k : Option Key} (h : keyIndex s.params.keyPolicy (s.getV x) = .ok k) :
    (flowOf (.skipIfKeyDown x) s = some (.skipIf (s.pressed k)) ∧
      exec (.skipIfKeyDown x) s = .next (s.finish (.skipIf (s.pressed k)))) ∧
    (flowOf (.skipIfKeyUp x) s = some (.skipIf (!s.pressed k)) ∧
      exec (.skipIfKeyUp x) s = .next (s.finish (.skipIf (!s.pressed k)))) := by
  simp [exec, flowOf, execSkipIfKeyDown, execSkipIfKeyUp, flowSkipIfKeyDown, flowSkipIfKeyUp, h, Except.toOption]

/-- A key skip whose register names no key under `KEY_POLICY = Fault` raises the error (R526). -/
theorem exec_keySkips_error {s : State} {x : Reg} {f : Fault} (h : keyIndex s.params.keyPolicy (s.getV x) = .error f) :
    exec (.skipIfKeyDown x) s = .fault f ∧ exec (.skipIfKeyUp x) s = .fault f := by
  simp [exec, execSkipIfKeyDown, execSkipIfKeyUp, flowSkipIfKeyDown, flowSkipIfKeyUp, h, raise]

/-! ### Where an instruction fails -/

/-- An instruction that reads or writes data from `I` on raises `AddressOutOfRange` where `OOB_POLICY` faults and the last address is
out of range, with the first such address (R210, R710). -/
theorem exec_data_fault {i : Instr} {s : State} (hp : s.params.oobPolicy = .fault) (hn : 0 < dataBytes i)
    (hlast : 0x1000 < s.i.toNat + dataBytes i) :
    exec i s = .fault (.addressOutOfRange (BitVec.ofNat 16 (max s.i.toNat 0x1000))) := by
  cases i
  case drawSprite x y n => simp only [exec, execDrawSprite, State.loadBytes_fault (n := n.toNat) hp hn hlast, raise]
  case storeBcd x => simp only [exec, execStoreBcd, State.storeBytes_fault (bs := bcdDigits (s.getV x)) hp hn hlast, raise]
  case storeRegisters x =>
    have hlen : (s.getVs x).length = dataBytes (.storeRegisters x) := s.getVs_length x
    rw [← hlen] at hn hlast
    simp only [exec, execStoreRegisters, State.storeBytes_fault hp hn hlast, raise]
  case loadRegisters x => simp only [exec, execLoadRegisters, State.loadBytes_fault (n := x.toNat + 1) hp hn hlast, raise]
  -- no other instruction accesses data
  all_goals exact absurd hn (Nat.lt_irrefl 0)

/-- Where the rule of a listed error says so, the instruction raises it. -/
theorem exec_of_raises {i : Instr} {s : State} {f : Fault} (h : Raises i s f) : exec i s = .fault f := by
  cases f with
  | badInstruction op => exact h.elim
  | stackOverflow =>
    obtain ⟨⟨nnn, rfl⟩, hfull⟩ := h
    exact exec_call_of_push_error nnn (State.push_full _ hfull)
  | stackUnderflow =>
    obtain ⟨rfl, hempty⟩ := h
    exact exec_ret_empty hempty
  | addressOutOfRange a =>
    obtain ⟨hp, hn, hlast, rfl⟩ := h
    exact exec_data_fault hp hn hlast
  | keyOutOfRange v =>
    obtain ⟨hp, hv, x, hi, rfl⟩ := h
    have hkey : keyIndex s.params.keyPolicy (s.getV x) = .error (.keyOutOfRange (s.getV x)) := by
      simp [keyIndex, hp, Nat.not_lt.mpr hv]
    obtain ⟨hdown, hup⟩ := exec_keySkips_error hkey
    obtain rfl | rfl := hi
    · exact hdown
    · exact hup

/-- An instruction that completes has found the data it accesses accessible. -/
theorem accessible_of_exec {i : Instr} {s t : State} (h : exec i s = .next t) : Accessible s s.i.toNat (dataBytes i) := by
  obtain haccess | ⟨hp, hn, hlast⟩ := accessible_or_fault s s.i.toNat (dataBytes i)
  · exact haccess
  · nomatch h.symm.trans (exec_data_fault hp hn hlast)

/-- An instruction that completes where its data is accessible does so or raises the error. -/
theorem exec_data_cases {i : Instr} {s : State} (hflow : flowOf i s = some .next)
    (hok : Accessible s s.i.toNat (dataBytes i) → exec i s = .next ((effect i s).finish .next)) :
    (∃ o, flowOf i s = some o ∧ exec i s = .next ((effect i s).finish o)) ∨ ∃ f, Raises i s f := by
  obtain haccess | ⟨hp, hn, hlast⟩ := accessible_or_fault s s.i.toNat (dataBytes i)
  · exact .inl ⟨_, hflow, hok haccess⟩
  · exact .inr ⟨.addressOutOfRange _, hp, hn, hlast, rfl⟩

/-- The key skips complete, both, unless the register names no key and `KEY_POLICY` faults (R526). -/
theorem exec_keySkips_cases (x : Reg) (s : State) :
    (∃ down up, (flowOf (.skipIfKeyDown x) s = some down ∧ exec (.skipIfKeyDown x) s = .next (s.finish down)) ∧
      (flowOf (.skipIfKeyUp x) s = some up ∧ exec (.skipIfKeyUp x) s = .next (s.finish up))) ∨
    (s.params.keyPolicy = .fault ∧ 16 ≤ (s.getV x).toNat) := by
  obtain ⟨-, h⟩ | ⟨-, -, h⟩ | ⟨hv, hp, -⟩ := keyIndex_cases s.params.keyPolicy (s.getV x)
  · exact .inl ⟨_, _, exec_keySkips_ok h⟩
  · exact .inl ⟨_, _, exec_keySkips_ok h⟩
  · exact .inr ⟨hp, hv⟩

/-- Everything an instruction can do: it completes with its effect and the outcome that the table of R407 gives it, or raises a
listed error. -/
theorem exec_cases (i : Instr) (s : State) :
    (∃ o, flowOf i s = some o ∧ exec i s = .next ((effect i s).finish o)) ∨ ∃ f, Raises i s f := by
  cases i
  case call nnn =>
    by_cases h : s.sp.val < 16
    · exact .inl ⟨_, rfl, exec_call_ok nnn h⟩
    · exact .inr ⟨.stackOverflow, ⟨nnn, rfl⟩, by omega⟩
  case ret =>
    by_cases h : 0 < s.sp.val
    · exact .inl ⟨_, by simp [flowOf, State.pop_ok h, Except.toOption], exec_ret_ok h⟩
    · exact .inr ⟨.stackUnderflow, rfl, by omega⟩
  case drawSprite x y n => exact exec_data_cases rfl (exec_drawSprite_ok x y)
  case storeBcd x => exact exec_data_cases rfl (exec_storeBcd_ok x)
  case storeRegisters x => exact exec_data_cases rfl exec_storeRegisters_ok
  case loadRegisters x => exact exec_data_cases rfl exec_loadRegisters_ok
  case skipIfKeyDown x =>
    obtain ⟨_, _, hdown, -⟩ | ⟨hp, hv⟩ := exec_keySkips_cases x s
    · exact .inl ⟨_, hdown⟩
    · exact .inr ⟨.keyOutOfRange _, hp, hv, x, .inl rfl, rfl⟩
  case skipIfKeyUp x =>
    obtain ⟨_, _, -, hup⟩ | ⟨hp, hv⟩ := exec_keySkips_cases x s
    · exact .inl ⟨_, hup⟩
    · exact .inr ⟨.keyOutOfRange _, hp, hv, x, .inr rfl, rfl⟩
  case addToIndex x => exact .inl ⟨_, rfl, exec_addToIndex x s⟩
  -- every other instruction completes, whatever the state
  all_goals exact .inl ⟨_, rfl, rfl⟩

/-- An instruction that answers a next state has completed: its effect, and `pc` moved by its outcome. -/
theorem eq_effect_of_exec {i : Instr} {s t : State} (h : exec i s = .next t) :
    ∃ o, flowOf i s = some o ∧ t = (effect i s).finish o := by
  obtain ⟨o, ho, he⟩ | ⟨f, hf⟩ := exec_cases i s
  · rw [he] at h
    cases h
    exact ⟨o, ho, rfl⟩
  · rw [exec_of_raises hf] at h
    nomatch h

/-- Settles O43: an instruction that does not complete raises a listed error. -/
theorem everyInstructionCompletesUnlessItRaises : Obligations.EveryInstructionCompletesUnlessItRaises := by
  unfold Obligations.EveryInstructionCompletesUnlessItRaises
  intro i s hraises
  obtain ⟨o, -, he⟩ | ⟨f, hf⟩ := exec_cases i s
  · exact ⟨_, he⟩
  · exact absurd hf (hraises f)

/-- Settles O42: a listed error is raised where its rule says so, and an instruction that raises none completes. -/
theorem instructionErrorsAreExactlyThoseListed : Obligations.InstructionErrorsAreExactlyThoseListed := by
  unfold Obligations.InstructionErrorsAreExactlyThoseListed
  intro i s
  obtain ⟨o, -, he⟩ | ⟨f, hf⟩ := exec_cases i s
  · exact ⟨fun f => ⟨fun h => (nomatch he.symm.trans h), exec_of_raises⟩, fun r h => (nomatch he.symm.trans h)⟩
  · have he := exec_of_raises hf
    refine ⟨fun f' => ⟨fun h => ?raised, exec_of_raises⟩, fun r h => nomatch he.symm.trans h⟩
    case raised =>
      cases he.symm.trans h
      exact hf

end Sys2Proof.Machine
end

section
/-! What every instruction keeps: its frame, the address its outcome names, even addresses, the canonical memory, and the random
byte that only Random reads (spec/40_execution_cycle.md rules R405 to R409). -/

namespace Sys2Proof.Machine

/-! ### The frame -/

/-- An instruction writes no piece of state but those its rule names. -/
theorem frame_effect (i : Instr) (s : State) (o : Flow) : Frame (writes i) s ((effect i s).finish o) := by
  cases i with
  | sysCall | jump | jumpPlusV0 | skipIfEq | skipIfNe | skipIfRegEq | skipIfRegNe | skipIfKeyDown | skipIfKeyUp =>
    exact (Frame.refl s).finish o
  | loadImmediate | addImmediate | copy | or | and | xor | random | loadFromDelay => exact (s.frame_setV _ _).finish o
  | addReg | subtractReg | shiftRight | subtractReverse | shiftLeft => exact (s.frame_writeRF _ _ _).finish o
  | loadRegisters => exact (s.frame_setVs _).finish o
  | clearDisplay => exact (s.frame_replaceFb _).finish o
  | drawSprite => exact ((s.frame_replaceFb _).trans (State.frame_setV _ _ _)).finish o
  | ret => exact (s.frame_replaceSp _).finish o
  | call => exact (s.frame_replaceStackSp _ _).finish o
  | loadIndex | loadFontAddress => exact (s.frame_replaceI _).finish o
  | waitForKey => exact (s.frame_replaceWait _).finish o
  | storeToDelay => exact (s.frame_replaceDt _).finish o
  | storeToSound => exact (s.frame_replaceSt _).finish o
  | storeBcd | storeRegisters => exact (s.frame_writeBytes _).finish o
  | addToIndex x =>
    refine Frame.finish (except := [.i, .v]) ?_ o
    unfold effect
    split_ifs
    · exact (s.frame_replaceI _).trans (State.frame_setV _ _ _)
    · exact (s.frame_replaceI _).mono (by simp)

/-- An instruction keeps every register but its destinations. -/
theorem regsKept_effect (i : Instr) (s : State) : RegsKept (destRegs s.params i) s (effect i s) := by
  have keptByFrame (hv : Field.v ∉ writes i) : RegsKept (destRegs s.params i) s (effect i s) :=
    (frame_effect i s .waiting).regsKept hv _
  cases i
  case loadImmediate | addImmediate | copy | or | and | xor | random | loadFromDelay => exact s.regsKept_setV _ _
  case addReg | subtractReg | shiftRight | subtractReverse | shiftLeft => exact s.regsKept_writeRF _ _ _
  case drawSprite => exact State.regsKept_setV _ VF _
  case addToIndex x =>
    simp only [effect, destRegs]
    split_ifs
    · exact State.regsKept_setV _ VF _
    · exact fun _ _ => rfl
  case loadRegisters x =>
    intro y hy
    refine s.getV_setVs_above ?_
    rw [State.length_bytesFrom]
    by_contra hlt
    exact hy (List.mem_map.mpr ⟨y.toNat, List.mem_range.mpr (Nat.not_le.mp hlt), by simp⟩)
  -- the others do not write the register file
  all_goals exact keptByFrame (by simp [writes])

/-- Settles O50: an instruction that completes has left its effect, and `pc` moved. -/
theorem everyInstructionKeepsItsFrame : Obligations.EveryInstructionKeepsItsFrame := by
  unfold Obligations.EveryInstructionKeepsItsFrame
  intro i s t h
  obtain ⟨o, -, rfl⟩ := eq_effect_of_exec h
  exact ⟨frame_effect i s o, (regsKept_effect i s).finish o⟩

theorem effect_params (i : Instr) (s : State) : (effect i s).params = s.params := by
  obtain ⟨⟨-, -, -, -, -, -, -, -, -, -, -, hparams⟩, -⟩ := frame_effect i s .waiting
  exact hparams

/-! ### The move of `pc` -/

@[simp] theorem effect_pc (i : Instr) (s : State) : (effect i s).pc = s.pc := by
  cases i
  case addToIndex x => unfold effect; split_ifs <;> rfl
  all_goals simp [effect]

/-- `outcome Next` moves `pc` by 2 (R406). -/
theorem effect_finish_next_pc (i : Instr) (s : State) : ((effect i s).finish .next).pc = s.pc + 2 := by
  rw [State.finish_pc, effect_pc, Flow.apply_next]
  rfl

theorem Flow.skipIf_cases (test : Bool) : Flow.skipIf test = .next ∨ Flow.skipIf test = .skip := by
  cases test
  · exact .inl rfl
  · exact .inr rfl

/-- The addresses that the jumps of an instruction go to (R422, R424, R426, R428). -/
def JumpTarget (i : Instr) (s : State) (a : Word) : Prop :=
  (∃ nnn, (i = .jump nnn ∨ i = .call nnn) ∧ a = zext16 nnn) ∨
  (∃ nnn, i = .jumpPlusV0 nnn ∧ a = zext16 nnn + zext16 (s.getV 0)) ∨
  (i = .ret ∧ ∃ j, ∃ hj : j < 16, a = s.stack[j])

/-- Everything the table of R407 can give: `Next`, `Skip`, or a jump to one of the instruction's targets. -/
theorem flowOf_cases {i : Instr} {s : State} {o : Flow} (h : flowOf i s = some o) :
    (o = .next ∨ o = .skip) ∨ ∃ a, o = .jump a ∧ JumpTarget i s a := by
  cases i
  case jump nnn => cases h; exact .inr ⟨_, rfl, .inl ⟨nnn, .inl rfl, rfl⟩⟩
  case call nnn => cases h; exact .inr ⟨_, rfl, .inl ⟨nnn, .inr rfl, rfl⟩⟩
  case jumpPlusV0 nnn => cases h; exact .inr ⟨_, rfl, .inr (.inl ⟨nnn, rfl, rfl⟩)⟩
  case ret =>
    obtain ⟨_, hpop⟩ | ⟨-, hpop⟩ := s.pop_cases <;> simp [flowOf, hpop, Except.toOption] at h
    exact .inr ⟨_, h.symm, .inr (.inr ⟨rfl, _, _, rfl⟩)⟩
  case skipIfEq | skipIfNe | skipIfRegEq | skipIfRegNe => cases h; exact .inl (Flow.skipIf_cases _)
  case skipIfKeyDown x =>
    cases hk : keyIndex s.params.keyPolicy (s.getV x) <;> simp [flowOf, flowSkipIfKeyDown, hk, Except.toOption] at h
    exact .inl (h ▸ Flow.skipIf_cases _)
  case skipIfKeyUp x =>
    cases hk : keyIndex s.params.keyPolicy (s.getV x) <;> simp [flowOf, flowSkipIfKeyUp, hk, Except.toOption] at h
    exact .inl (h ▸ Flow.skipIf_cases _)
  all_goals cases h; exact .inl (.inl rfl)

/-- No instruction has the outcome `Waiting`: it is a waiting step's alone (R401, R407). -/
theorem flowOf_ne_waiting (i : Instr) (s : State) : flowOf i s ≠ some .waiting := fun h => by
  obtain (h | h) | ⟨_, h, -⟩ := flowOf_cases h <;> nomatch h

/-- Settles O10: an instruction's effect leaves `pc` to its outcome. -/
theorem outcomeMovesPc : Obligations.OutcomeMovesPc := by
  unfold Obligations.OutcomeMovesPc
  intro i s t h
  obtain ⟨o, ho, rfl⟩ := eq_effect_of_exec h
  refine ⟨o, ho, fun hw => flowOf_ne_waiting i s (hw ▸ ho), ?pc⟩
  case pc => rw [State.finish_pc, effect_pc]; cases o <;> simp

/-! ### Even addresses -/

/-- Where the targets are even and so are the return addresses, an instruction's jump is to an even address. -/
theorem JumpTarget.even {i : Instr} {s : State} {a : Word} (h : JumpTarget i s a) (heven : EvenPc s)
    (htarget : EvenTarget i s) : a.toNat % 2 = 0 := by
  obtain ⟨-, hslots⟩ := heven
  obtain ⟨hnnn, hsum⟩ := htarget
  obtain ⟨nnn, hi, rfl⟩ | ⟨nnn, hi, rfl⟩ | ⟨-, j, hj, rfl⟩ := h
  · rw [zext16_addr_toNat]
    exact hnnn nnn hi
  · have hsumEven := hsum nnn hi
    rw [BitVec.toNat_add, zext16_addr_toNat, BitVec.toNat_setWidth]
    omega
  · exact hslots j hj

/-- From an even `pc` every return address stays even: only Call writes one, and it is `pc + 2`. -/
theorem effect_stack_even {i : Instr} {s : State} (h : EvenPc s) (j : Nat) (hj : j < 16) :
    (effect i s).stack[j].toNat % 2 = 0 := by
  obtain ⟨hpc, hslots⟩ := h
  by_cases hcall : ∃ nnn, i = .call nnn
  · obtain ⟨nnn, rfl⟩ := hcall
    simp only [effect, Vector.getElem_setIfInBounds]
    split_ifs
    · rw [BitVec.toNat_add]; simp; omega
    · exact hslots j hj
  · obtain ⟨⟨-, -, -, -, hstack, -⟩, -⟩ := frame_effect i s .waiting
    have hkept : (effect i s).stack = s.stack := hstack (by cases i <;> simp_all [writes])
    simp only [hkept]
    exact hslots j hj

/-- Settles O52: the outcome moves `pc` by an even number or to an even target, and only Call writes a return address. -/
theorem pcStaysEvenUnderEvenTargets : Obligations.PcStaysEvenUnderEvenTargets := by
  unfold Obligations.PcStaysEvenUnderEvenTargets
  intro i s t heven htarget h
  obtain ⟨o, ho, rfl⟩ := eq_effect_of_exec h
  refine ⟨?pc, effect_stack_even heven⟩
  case pc =>
    have hpc := heven.1
    rw [State.finish_pc, effect_pc]
    obtain (rfl | rfl) | ⟨a, rfl, hjump⟩ := flowOf_cases ho
    · rw [Flow.apply_next, BitVec.toNat_add]; simp; omega
    · rw [Flow.apply_skip, BitVec.toNat_add]; simp; omega
    · exact hjump.even heven htarget

/-! ### The canonical memory -/

/-- Only Fx33 and Fx55 write memory, byte by byte inside the address space. -/
theorem memWf_effect {s : State} (i : Instr) (h : s.memWf = true) : (effect i s).memWf = true := by
  have otherwise {t : State} (hm : t.mem = s.mem) (hp : t.params = s.params) : t.memWf = true :=
    (State.memWf_congr hm hp).trans h
  cases i
  case storeBcd | storeRegisters => exact State.memWf_writeBytes h storedCells_lt
  case addToIndex x => unfold effect; split_ifs <;> exact otherwise rfl rfl
  all_goals exact otherwise (by simp [effect]) (effect_params _ s)

/-- The memory after power-on lists nothing. -/
theorem memWf_powerOn (s : State) : s.powerOn.memWf = true := rfl

/-- Settles O48, event by event: a step executes an instruction or nothing, a load writes inside the address space from the empty
memory on, and the other events write no byte. -/
theorem memoryStaysCanonical : Obligations.MemoryStaysCanonical := by
  unfold Obligations.MemoryStaysCanonical
  intro s t hwf h
  have keptByEvent {u : State} (hm : u.mem = s.mem) (hp : u.params = s.params) : u.memWf = true :=
    (State.memWf_congr hm hp).trans hwf
  obtain ⟨u, -, hstep, rfl⟩ | ⟨_, -, rfl⟩ | ⟨k, _, -, rfl⟩ | ⟨k, _, -, rfl⟩ | ⟨image, _, -, hlen, rfl⟩ | ⟨image, _, -, -, rfl⟩ |
    ⟨_, -, rfl⟩ := nextEvent_cases h
  · obtain ⟨_, -, rfl⟩ | ⟨_, _, i, -, -, -, hexec⟩ := engineStep_cases hstep
    · exact hwf
    · obtain ⟨o, -, rfl⟩ := eq_effect_of_exec hexec
      exact memWf_effect i hwf
  · exact keptByEvent s.tick_mem s.tick_params
  · exact keptByEvent (s.keyDown_mem k) (s.keyDown_params k)
  · exact keptByEvent (s.keyUp_mem k) (s.keyUp_params k)
  · exact State.memWf_writeBytes (memWf_powerOn s) (imageCells_lt hlen)
  · exact hwf
  · exact memWf_powerOn s

/-- Settles O49: reset lists nothing. -/
theorem resetMemoryIsCanonical : Obligations.ResetMemoryIsCanonical := by
  unfold Obligations.ResetMemoryIsCanonical
  exact ⟨rfl, rfl⟩

/-- Settles O51: no instruction writes the parameters, and no event does. -/
theorem parametersNeverChange : Obligations.ParametersNeverChange := by
  unfold Obligations.ParametersNeverChange
  intro s t h
  obtain ⟨u, -, hstep, rfl⟩ | ⟨_, -, rfl⟩ | ⟨k, _, -, rfl⟩ | ⟨k, _, -, rfl⟩ | ⟨image, _, -, -, rfl⟩ | ⟨image, _, -, -, rfl⟩ |
    ⟨_, -, rfl⟩ := nextEvent_cases h
  · obtain ⟨_, -, rfl⟩ | ⟨_, _, i, -, -, -, hexec⟩ := engineStep_cases hstep
    · rfl
    · obtain ⟨o, -, rfl⟩ := eq_effect_of_exec hexec
      exact effect_params i s
  all_goals simp

end Sys2Proof.Machine
end

section
/-! The driver's own fields, the schedule and the step count: no instruction reads them but Random, whose byte they give
(spec/40_execution_cycle.md rules R408, R409). -/

namespace Sys2Proof.Machine

/-- The state with another schedule and another step count. -/
def State.withDriver (s : State) (es : List Event) (n : Nat) : State := { s with schedule := es, stepCount := n }

theorem State.withDriver_writeRF (s : State) (x : Reg) (r g : Byte) (es : List Event) (n : Nat) :
    (s.withDriver es n).writeRF x r g = (s.writeRF x r g).withDriver es n := by
  have hp : (s.withDriver es n).params = s.params := rfl
  unfold State.writeRF
  rw [hp]
  cases s.params.vfOrder <;> rfl

theorem State.withDriver_writeBytes (s : State) (cs : List (Nat × Byte)) (es : List Event) (n : Nat) :
    (s.withDriver es n).writeBytes cs = (s.writeBytes cs).withDriver es n := by
  induction cs generalizing s with
  | nil => rfl
  | cons c cs ih => exact ih (s.writeByte c.1 c.2)

/-- The listed errors do not depend on the driver's fields. -/
theorem raises_withDriver (i : Instr) (s : State) (f : Fault) (es : List Event) (n : Nat) :
    Raises i (s.withDriver es n) f ↔ Raises i s f := by
  cases f <;> rfl

/-- Nor do the outcomes. -/
theorem flowOf_withDriver (i : Instr) (s : State) (es : List Event) (n : Nat) :
    flowOf i (s.withDriver es n) = flowOf i s := by
  cases i
  case ret =>
    obtain ⟨h, hpop⟩ | ⟨h, hpop⟩ := s.pop_cases
    · have hpop' := State.pop_ok (s := s.withDriver es n) h
      simp only [flowOf, hpop, hpop']
      rfl
    · have hpop' := State.pop_empty (s := s.withDriver es n) h
      simp only [flowOf, hpop, hpop']
  all_goals rfl

/-- With the same random byte, or where the instruction is not Random, the effect is the same. -/
theorem effect_withDriver (i : Instr) (s : State) (es : List Event) (n : Nat)
    (h : (∀ x kk, i ≠ .random x kk) ∨ (s.withDriver es n).randomByte = s.randomByte) :
    effect i (s.withDriver es n) = (effect i s).withDriver es n := by
  cases i
  case random x kk =>
    obtain h | h := h
    · exact absurd rfl (h x kk)
    · simp only [effect, h]
      rfl
  case addReg | subtractReg | shiftRight | subtractReverse | shiftLeft => exact State.withDriver_writeRF _ _ _ _ _ _
  case storeBcd | storeRegisters => exact State.withDriver_writeBytes _ _ _ _
  case addToIndex x =>
    have hp : (s.withDriver es n).params = s.params := rfl
    simp only [effect, hp]
    split_ifs <;> rfl
  all_goals rfl

/-- With the same random byte, or where the instruction is not Random, an instruction answers the same whatever the driver's
fields, which it leaves as they are. -/
theorem exec_withDriver (i : Instr) (s : State) (es : List Event) (n : Nat)
    (h : (∀ x kk, i ≠ .random x kk) ∨ (s.withDriver es n).randomByte = s.randomByte) :
    exec i (s.withDriver es n) = mapNext (fun t => t.withDriver es n) (exec i s) := by
  obtain ⟨o, ho, he⟩ | ⟨f, hf⟩ := exec_cases i (s.withDriver es n)
  · obtain ⟨o', ho', he'⟩ | ⟨f, hf⟩ := exec_cases i s
    · rw [flowOf_withDriver, ho'] at ho
      cases ho
      rw [he, he', effect_withDriver i s es n h]
      rfl
    · have hf' := exec_of_raises ((raises_withDriver i s f es n).mpr hf)
      nomatch he.symm.trans hf'
  · rw [exec_of_raises hf, exec_of_raises ((raises_withDriver i s f es n).mp hf)]
    rfl

/-- Settles O24: an instruction that is not Random reads neither of the driver's fields. -/
theorem onlyRandomReadsTheRandomByte : Obligations.OnlyRandomReadsTheRandomByte := by
  unfold Obligations.OnlyRandomReadsTheRandomByte
  intro i s es n hi
  exact exec_withDriver i s es n (.inl hi)

end Sys2Proof.Machine
end

section
/-! One step of the engine: the wait check, the fetch and the dispatch (spec/40_execution_cycle.md rules R400 to R404), and the word
that the host places for it (log entry 14). -/

namespace Sys2Proof.Machine

/-! ### The step when it is the driver's next event -/

/-- Where the driver's next event is a step, the machine takes one step of the engine. -/
theorem step_of_stepIsNext {s : State} (h : StepIsNext s) : step s = mapNext State.retireStep (engineStep s) := by
  obtain h | ⟨r, rest, h⟩ := h <;> simp only [step, nextEvent, h]

/-- A running engine that fetches an instruction executes it. -/
theorem engineStep_instr {s : State} {hi lo : Byte} {i : Instr} (hrun : s.wait = .running) (hfetch : s.fetch = .ok (hi, lo))
    (hdecode : decode hi lo = .instr i) : engineStep s = exec i s := by
  simp only [engineStep, hrun, hfetch, hdecode, execDecoded]

theorem engineStep_waiting {s : State} {r : Reg} (h : s.wait = .awaitingKey r) : engineStep s = .next s := by
  simp only [engineStep, h]

/-- Taking a step off the schedule and counting it changes no piece of state. -/
theorem State.unchanged_retireStep (s : State) : Unchanged [] s s.retireStep := by
  simp [Unchanged, State.getV, State.readByte]

/-- Settles O5: the step is the instruction's, whose next state has the event off the schedule and the step counted. -/
theorem stepRunsDecodedInstruction : Obligations.StepRunsDecodedInstruction := by
  unfold Obligations.StepRunsDecodedInstruction
  intro s hi lo i hstep hrun hfetch hdecode
  rw [step_of_stepIsNext hstep, engineStep_instr hrun hfetch hdecode]
  exact ⟨fun t h => by rw [h]; rfl, fun f h => by rw [h]; rfl⟩

/-- Settles O6: the engine's own step answers the state as it is. -/
theorem waitingStepChangesNothing : Obligations.WaitingStepChangesNothing := by
  unfold Obligations.WaitingStepChangesNothing
  intro s r hstep hwait
  have hnext : step s = .next s.retireStep := by rw [step_of_stepIsNext hstep, engineStep_waiting hwait]; rfl
  exact ⟨by simp only [stepFlow, hwait], _, hnext, s.unchanged_retireStep, rfl, rfl, rfl⟩

/-- Settles O8: the engine raises the fetch's error before it decodes. -/
theorem fetchErrorEndsTheStep : Obligations.FetchErrorEndsTheStep := by
  unfold Obligations.FetchErrorEndsTheStep
  intro s f hstep hrun hfetch
  refine (step_eq_fault_iff s f).mpr ⟨hstep, ?raised⟩
  case raised => simp only [engineStep, hrun, hfetch, raise]

/-! ### The word placed by the host -/

/-- The table's word of 16 bits is the word itself. -/
theorem tableWord_toNat (op : Word) : tableWord 16 op.toNat = op := by
  rw [tableWord, Nat.mod_eq_of_lt op.isLt, BitVec.ofNat_toNat, BitVec.setWidth_eq]

/-- The address the host places the word at is one that a fetch can reach. -/
theorem fetchablePc_accessible (p : OobPolicy) (pc : Word) : p = .wrap ∨ (fetchablePc p pc).toNat + 1 < 0x1000 := by
  cases p with
  | wrap => exact .inl rfl
  | fault =>
    right
    unfold fetchablePc
    dsimp only
    split_ifs with h
    · exact h
    · decide

/-- The events left out before the next step end where a step comes next. -/
theorem skipToStep_stepIsNext (es : List Event) : skipToStep es = [] ∨ ∃ r rest, skipToStep es = .step r :: rest := by
  induction es with
  | nil => exact .inl rfl
  | cons e es ih =>
    cases e with
    | step r => exact .inr ⟨r, es, rfl⟩
    | tick | keyDown | keyUp | load | powerOn => exact ih

/-- Two bytes written at consecutive addresses modulo 0x1000 are read back there. -/
theorem State.readByte_writeByte_pair {s : State} (h : s.memWf = true) (a : Nat) (hi lo : Byte) :
    let t := (s.writeByte (a % 0x1000) hi).writeByte ((a + 1) % 0x1000) lo
    t.readByte (a % 0x1000) = hi ∧ t.readByte ((a + 1) % 0x1000) = lo := by
  have hwf : (s.writeByte (a % 0x1000) hi).memWf = true := State.memWf_writeByte h (by omega)
  have hne : a % 0x1000 ≠ (a + 1) % 0x1000 := by omega
  constructor
  · rw [State.readByte_writeByte hwf, if_neg hne, State.readByte_writeByte h, if_pos rfl]
  · rw [State.readByte_writeByte hwf, if_pos rfl]

/-- Placing a word writes `pc`, the wait state and memory, and nothing else of the chip's state. -/
theorem State.unchanged_placeWord (s : State) (op : Word) : Unchanged [.pc, .wait, .mem] s (s.placeWord op) := by
  simp [State.placeWord, Unchanged, State.getV]

/-- Settles O11: `pc` is where a fetch succeeds, and the two bytes there are the word's. -/
theorem placedWordIsFetchedNext : Obligations.PlacedWordIsFetchedNext := by
  unfold Obligations.PlacedWordIsFetchedNext
  intro s op hwf
  have hplace : s.withFetchWord 16 op.toNat = s.placeWord op := by rw [State.withFetchWord, tableWord_toNat]
  rw [hplace]
  refine ⟨skipToStep_stepIsNext s.schedule, rfl, ?fetched, s.unchanged_placeWord op⟩
  case fetched =>
    have hok := State.fetch_ok (s := s.placeWord op) (fetchablePc_accessible s.params.oobPolicy s.pc)
    obtain ⟨hhi, hlo⟩ := State.readByte_writeByte_pair (s := { s with
      schedule := skipToStep s.schedule, wait := .running, pc := fetchablePc s.params.oobPolicy s.pc }) hwf
      (fetchablePc s.params.oobPolicy s.pc).toNat op.hi op.lo
    rw [hok]
    exact congrArg Except.ok (Prod.ext hhi hlo)

end Sys2Proof.Machine
end

section
/-! Return, and JumpPlusV0 (spec/41_flow_control.md rules R426, R428). -/

namespace Sys2Proof.Machine

/-- Settles O14, from what Return does with an address on the stack and with none. -/
theorem returnPopsReturnAddress : Obligations.ReturnPopsReturnAddress := by
  unfold Obligations.ReturnPopsReturnAddress
  refine fun s => ⟨fun h => ⟨_, exec_ret_ok h, rfl, ?depth, frame_effect .ret s _⟩, exec_ret_empty⟩
  case depth =>
    have hsp : (effect .ret s).sp.val = s.sp.val - 1 := sp_sub_one_val h
    rw [State.finish_sp, hsp]
    omega

/-- Settles O15: the slot that the Return pops is the one that the Call filled. -/
theorem returnUndoesCall : Obligations.ReturnUndoesCall := by
  unfold Obligations.ReturnUndoesCall
  intro nnn s t u hcall hstack hsp
  obtain hfree | hfull : s.sp.val < 16 ∨ s.sp.val = 16 := by omega
  case inr => nomatch hcall.symm.trans (exec_call_of_push_error nnn (State.push_full _ hfull))
  case inl =>
    rw [exec_call_ok nnn hfree] at hcall
    cases hcall
    have hdepth : u.sp.val = s.sp.val + 1 := by rw [hsp]; exact sp_add_one_val hfree
    have hslot : u.stack[u.sp.val - 1] = s.pc + 2#16 := by
      simp [hstack, hdepth, effect]
    refine ⟨_, exec_ret_ok (by omega), ?target, ?depth⟩
    case target => rw [State.finish_pc, Flow.apply_jump, hslot, BitVec.toNat_add]; rfl
    case depth =>
      have hpop : (effect .ret u).sp.val = u.sp.val - 1 := sp_sub_one_val (by omega)
      ext
      rw [State.finish_sp, hpop, hdepth, Nat.add_sub_cancel]

/-- Settles O16: the sum of a 12-bit and an 8-bit number does not reach 0x10000. -/
theorem jumpPlusV0AddsV0 : Obligations.JumpPlusV0AddsV0 := by
  unfold Obligations.JumpPlusV0AddsV0
  refine fun nnn s => ⟨_, rfl, ?target, (Frame.refl s).finish _⟩
  case target =>
    have hsum : (zext16 nnn + zext16 (s.getV 0)).toNat = nnn.toNat + (s.getV 0).toNat := by
      rw [BitVec.toNat_add, zext16_addr_toNat, BitVec.toNat_setWidth]
      omega
    exact hsum

end Sys2Proof.Machine
end

section
/-! Register loads, logic, shifts and Random (spec/43_arithmetic.md rules R462 to R472, R478 to R484). -/

namespace Sys2Proof.Machine

/-- An instruction that ends in the write of one register and `outcome Next` leaves the byte there, keeps the other registers, moves
`pc` by 2 and writes nothing else. -/
theorem State.setV_finish_next (s : State) (x : Reg) (b : Byte) :
    ((s.setV x b).finish .next).getV x = b ∧ RegsKept [x] s ((s.setV x b).finish .next) ∧
      ((s.setV x b).finish .next).pc = s.pc + 2 ∧ Frame [.v, .pc] s ((s.setV x b).finish .next) :=
  ⟨by simp, (s.regsKept_setV x b).finish .next, Flow.apply_next s.pc, (s.frame_setV x b).finish .next⟩

/-- Settles O18: each is one register write of its value, followed by `outcome Next`. -/
theorem loadsAndLogicWriteOneRegister : Obligations.LoadsAndLogicWriteOneRegister := by
  unfold Obligations.LoadsAndLogicWriteOneRegister
  intro x y kk s
  refine ⟨⟨_, rfl, s.setV_finish_next x kk⟩, ⟨_, rfl, ?addImmediate⟩, ⟨_, rfl, s.setV_finish_next x (s.getV y)⟩,
    ⟨_, rfl, ?or⟩, ⟨_, rfl, ?and⟩, ⟨_, rfl, ?xor⟩⟩
  case addImmediate =>
    obtain ⟨hv, hrest⟩ := s.setV_finish_next x (s.getV x + kk)
    exact ⟨by rw [hv, BitVec.toNat_add], hrest⟩
  case or =>
    obtain ⟨hv, hrest⟩ := s.setV_finish_next x (s.getV x ||| s.getV y)
    exact ⟨fun b => by rw [hv, BitVec.getLsbD_or], hrest⟩
  case and =>
    obtain ⟨hv, hrest⟩ := s.setV_finish_next x (s.getV x &&& s.getV y)
    exact ⟨fun b => by rw [hv, BitVec.getLsbD_and], hrest⟩
  case xor =>
    obtain ⟨hv, hrest⟩ := s.setV_finish_next x (s.getV x ^^^ s.getV y)
    exact ⟨fun b => by rw [hv, BitVec.getLsbD_xor], hrest⟩

/-- Settles O21: `WriteRF` of the difference of the exchanged operands and of its not-borrow. -/
theorem subtractReverseDifferenceAndNotBorrow : Obligations.SubtractReverseDifferenceAndNotBorrow := by
  unfold Obligations.SubtractReverseDifferenceAndNotBorrow
  intro x y s
  exact ⟨_, rfl, s.writeRF_finish_next x (byte_sub_toNat _ _) (noBorrowFlag_toNat _ _)⟩

/-! ### Shifts as numbers -/

theorem lsbFlag_toNat (src : Byte) : (lsbFlag src).toNat = src.toNat % 2 := by
  simp [lsbFlag, Nat.and_one_is_mod]

theorem msbFlag_toNat (src : Byte) : (msbFlag src).toNat = src.toNat / 128 := by
  simp [msbFlag, Nat.and_one_is_mod, Nat.shiftRight_eq_div_pow]
  omega

theorem byte_shiftRight_one_toNat (src : Byte) : (src >>> 1).toNat = src.toNat / 2 := by
  simp [Nat.shiftRight_eq_div_pow]

theorem byte_shiftLeft_one_toNat (src : Byte) : (src <<< 1).toNat = src.toNat * 2 % 256 := by
  simp [Nat.shiftLeft_eq]

/-- Settles O22: `WriteRF` of the shifted source and of the bit shifted out, the source being the one that `SHIFT_SOURCE` names. -/
theorem shiftsMoveOneBit : Obligations.ShiftsMoveOneBit := by
  unfold Obligations.ShiftsMoveOneBit
  intro x y s src hvx hvy
  have hsrc : s.shiftOperand x y = src := by
    unfold State.shiftOperand
    cases h : s.params.shiftSource with
    | vx => exact (hvx h).symm
    | vy => exact (hvy h).symm
  subst hsrc
  exact ⟨⟨_, rfl, s.writeRF_finish_next x (byte_shiftRight_one_toNat _) (lsbFlag_toNat _)⟩,
    ⟨_, rfl, s.writeRF_finish_next x (byte_shiftLeft_one_toNat _) (msbFlag_toNat _)⟩⟩

/-- Settles O23: one register write of the step's byte under the mask; the byte is the head step's, or the free one. -/
theorem randomMasksTheStepsByte : Obligations.RandomMasksTheStepsByte := by
  unfold Obligations.RandomMasksTheStepsByte
  intro x kk s
  obtain ⟨hv, hrest⟩ := s.setV_finish_next x (s.randomByte &&& kk)
  refine ⟨decodeWord_encode (i := .random x kk) rfl, _, rfl, fun r rest hs => ?scheduled, fun hs => ?free, hrest⟩
  case scheduled => rw [hv, State.randomByte, hs]
  case free => rw [hv, State.randomByte, hs]

end Sys2Proof.Machine
end

section
/-! DrawSprite (spec/44_display.md rules R502, R504): which pixels a draw toggles, its collision flag, and two draws of one sprite. -/

namespace Sys2Proof.Machine

/-- The bytes of a sprite, loaded from memory, cover what the sprite covers: the coordinates are those the draw computes. -/
theorem spriteCovers_iff {vx vy : Byte} {bs : List Byte} {rowByte : Nat → Byte}
    (hbytes : ∀ row < bs.length, rowByte row = bs.getD row 0) (c : Fin 64) (r : Fin 32) :
    SpriteCovers vx vy bs.length rowByte c r ↔
      ∃ k < bs.length, ∃ col < 8, (bs.getD k 0).getLsbD (7 - col) = true ∧ c = spriteColumn vx col ∧ r = spriteRow vy (0 + k) := by
  unfold SpriteCovers
  refine exists_congr fun row => and_congr_right fun hrow => exists_congr fun col => ?_
  rw [hbytes row hrow, Fin.ext_iff, Fin.ext_iff, spriteColumn_val, spriteRow_val, Nat.zero_add]

/-- What a draw does to the pixels and to the collision, in terms of the pixels the sprite covers (R502). -/
theorem drawRows_covers {vx vy : Byte} {bs : List Byte} {rowByte : Nat → Byte} (hlen : bs.length ≤ 32)
    (hbytes : ∀ row < bs.length, rowByte row = bs.getD row 0) (fb : Framebuffer) :
    let cv := drawRows vx vy 0 bs { fb := fb, collision := false }
    (∀ c r, cv.fb.pixel c r = (fb.pixel c r ^^ truth (SpriteCovers vx vy bs.length rowByte c r))) ∧
      (cv.collision = true ↔ ∃ c r, SpriteCovers vx vy bs.length rowByte c r ∧ fb.pixel c r = true) := by
  obtain ⟨hpixels, hcollision⟩ := drawRows_spec vx vy bs 0 (by omega) { fb := fb, collision := false }
  refine ⟨fun c r => ?pixels, ?collision⟩
  case pixels => rw [hpixels, truth_congr (spriteCovers_iff hbytes c r)]
  case collision =>
    rw [hcollision, Bool.false_or, truth_eq_true]
    constructor
    · rintro ⟨k, hk, col, hcol, hbit, hset⟩
      exact ⟨_, _, (spriteCovers_iff hbytes _ _).mpr ⟨k, hk, col, hcol, hbit, rfl, rfl⟩, hset⟩
    · rintro ⟨c, r, hcovers, hset⟩
      obtain ⟨k, hk, col, hcol, hbit, rfl, rfl⟩ := (spriteCovers_iff hbytes c r).mp hcovers
      exact ⟨k, hk, col, hcol, hbit, hset⟩

/-- What DrawSprite leaves in the framebuffer and in `V[15]`: the bytes at `I` are the sprite's rows, and the coordinates those of the
registers before the instruction (R502). -/
theorem effect_drawSprite {x y : Reg} {n : BitVec 4} {s : State} {rowByte : Nat → Byte}
    (hrows : ∀ row < n.toNat, rowByte row = s.readByte ((s.i.toNat + row) % 0x1000)) :
    (∀ c r, (effect (.drawSprite x y n) s).fb.pixel c r =
      (s.fb.pixel c r ^^ truth (SpriteCovers (s.getV x) (s.getV y) n.toNat rowByte c r))) ∧
    (effect (.drawSprite x y n) s).getV VF =
      flagOf (truth (∃ c r, SpriteCovers (s.getV x) (s.getV y) n.toNat rowByte c r ∧ s.fb.pixel c r = true)) := by
  have hlen : (s.bytesFrom s.i.toNat n.toNat).length = n.toNat := s.length_bytesFrom _ _
  have hbytes : ∀ row < (s.bytesFrom s.i.toNat n.toNat).length,
      rowByte row = (s.bytesFrom s.i.toNat n.toNat).getD row 0 := by
    intro row hrow
    rw [hrows row (hlen ▸ hrow), List.getD_eq_getElem _ _ hrow, State.getElem_bytesFrom]
  have hn := n.isLt
  obtain ⟨hpixels, hcollision⟩ := drawRows_covers (vx := s.getV x) (vy := s.getV y) (by omega) hbytes s.fb
  rw [hlen] at hpixels hcollision
  refine ⟨hpixels, ?flag⟩
  case flag =>
    rw [← hcollision]
    simp [effect, collisionFlag, truth]

/-- Settles O26, pixel by pixel: a covered one is toggled, an uncovered one is not. -/
theorem drawSpriteXorsPixels : Obligations.DrawSpriteXorsPixels := by
  unfold Obligations.DrawSpriteXorsPixels
  intro x y n s rowByte haccess hrows
  obtain ⟨hpixels, hflag⟩ := effect_drawSprite (x := x) (y := y) hrows
  refine ⟨_, exec_drawSprite_ok x y haccess, fun c r h => ?covered, fun c r h => ?uncovered, fun h => ?hit, fun h => ?miss,
    (regsKept_effect (.drawSprite x y n) s).finish .next, effect_finish_next_pc _ s, frame_effect (.drawSprite x y n) s .next⟩
  case covered => rw [State.finish_fb, hpixels, truth_true h, Bool.xor_true]
  case uncovered => rw [State.finish_fb, hpixels, truth_false h, Bool.xor_false]
  case hit => rw [State.getV_finish, hflag, truth_true h]; rfl
  case miss =>
    have hnone : ¬ ∃ c r, SpriteCovers (s.getV x) (s.getV y) n.toNat rowByte c r ∧ s.fb.pixel c r = true :=
      fun ⟨c, r, hcovers, hset⟩ => by simp [h c r hcovers] at hset
    rw [State.getV_finish, hflag, truth_false hnone]
    rfl

theorem flagOf_toNat_eq_one_iff (test : Bool) : (flagOf test).toNat = 1 ↔ test = true := by
  cases test <;> decide

/-- The bytes of the sprite at `I`, row by row (R502). -/
def State.spriteByte (s : State) (row : Nat) : Byte := s.readByte ((s.i.toNat + row) % 0x1000)

/-- A pixel that is covered and set after its toggle was not set before, and a set pixel that was not set before is covered. -/
theorem covered_set_iff {before after : Bool} {P : Prop} (h : after = (before ^^ truth P)) :
    (P ∧ after = true) ↔ (before = false ∧ after = true) := by
  subst h
  by_cases hP : P
  · cases before <;> simp [truth, hP]
  · cases before <;> simp [truth, hP]

/-- Settles O27: both draws cover the same pixels, since the first leaves `I`, memory and the coordinates; so the second undoes the
first, and a covered pixel is set before the second draw exactly when the first has set it. -/
theorem drawSpriteTwiceRestoresFramebuffer : Obligations.DrawSpriteTwiceRestoresFramebuffer := by
  unfold Obligations.DrawSpriteTwiceRestoresFramebuffer
  intro x y n s t hexec hx hy
  obtain ⟨⟨⟨-, hi, -, -, -, -, -, -, -, -, hmem, hparams⟩, -⟩, -⟩ := everyInstructionKeepsItsFrame _ s t hexec
  have hsameI : t.i = s.i := hi (by simp [writes])
  have hsameMem : ∀ a, t.readByte a = s.readByte a := hmem (by simp [writes])
  have haccess : Accessible t t.i.toNat n.toNat := by
    unfold Accessible
    rw [hsameI, hparams]
    exact accessible_of_exec hexec
  have hfirst (c r) : t.fb.pixel c r =
      (s.fb.pixel c r ^^ truth (SpriteCovers (s.getV x) (s.getV y) n.toNat s.spriteByte c r)) := by
    obtain ⟨o, -, rfl⟩ := eq_effect_of_exec hexec
    obtain ⟨hpixels, -⟩ := effect_drawSprite (x := x) (y := y) (n := n) (rowByte := s.spriteByte) fun _ _ => rfl
    exact hpixels c r
  obtain ⟨hsecond, hflag⟩ := effect_drawSprite (x := x) (y := y) (n := n) (s := t) (rowByte := s.spriteByte) fun row _ => by
    rw [hsameI, hsameMem, State.spriteByte]
  rw [hx, hy] at hsecond hflag
  refine ⟨_, exec_drawSprite_ok x y haccess, Framebuffer.ext_pixel fun c r => ?restored, ?flag⟩
  case restored => rw [State.finish_fb, hsecond, hfirst, Bool.xor_assoc, Bool.xor_self, Bool.xor_false]
  case flag =>
    rw [State.getV_finish, hflag, flagOf_toNat_eq_one_iff, truth_eq_true]
    exact exists_congr fun c => exists_congr fun r => covered_set_iff (hfirst c r)

end Sys2Proof.Machine
end

section
/-! The keyboard: the key skips, WaitForKey and the key signals (spec/45_keyboard.md, spec/60_exceptions.md rules R720 to R722). -/

namespace Sys2Proof.Machine

/-! ### The key skips -/

/-- Where the register names a key, or none, the skips are the tests of that key and of its negation. -/
theorem keySkips_pc {s : State} {x : Reg} {k : Option Key} (h : keyIndex s.params.keyPolicy (s.getV x) = .ok k) :
    (∃ t, exec (.skipIfKeyDown x) s = .next t ∧ t.pc = s.pc + (if s.pressed k = true then 4 else 2) ∧ Frame [.pc] s t) ∧
    (∃ t, exec (.skipIfKeyUp x) s = .next t ∧ t.pc = s.pc + (if s.pressed k = true then 2 else 4) ∧ Frame [.pc] s t) := by
  obtain ⟨⟨-, hdown⟩, -, hup⟩ := exec_keySkips_ok h
  refine ⟨⟨_, hdown, ?down, (Frame.refl s).finish _⟩, ⟨_, hup, ?up, (Frame.refl s).finish _⟩⟩
  case down => simp
  case up => cases hp : s.pressed k <;> simp

/-- The key a byte names is its low nibble. -/
theorem State.pressed_lowNibble (s : State) (v : Byte) : s.pressed (some (v.setWidth 4)) = s.keys.getLsbD (v.toNat % 16) := by
  simp [State.pressed]

/-- Settles O28, from the key that `V[x]` names below 16, and from 16 on at each value of `KEY_POLICY`. -/
theorem keySkipsTestTheKeyMask : Obligations.KeySkipsTestTheKeyMask := by
  unfold Obligations.KeySkipsTestTheKeyMask
  intro x s
  have named (h : (s.getV x).toNat < 16) : keyIndex s.params.keyPolicy (s.getV x) = .ok (some ((s.getV x).setWidth 4)) := by
    simp [keyIndex, h]
  refine ⟨fun hlt hset => ?held, fun hlt hunset => ?notHeld, fun hge hp => ?fault, fun hge hp => ?lowNibble,
    fun hge hp => ?notPressed⟩
  case held =>
    have hpressed : s.pressed (some ((s.getV x).setWidth 4)) = true := by
      rw [State.pressed_lowNibble, Nat.mod_eq_of_lt hlt, hset]
    simpa [hpressed] using keySkips_pc (named hlt)
  case notHeld =>
    have hpressed : s.pressed (some ((s.getV x).setWidth 4)) = false := by
      rw [State.pressed_lowNibble, Nat.mod_eq_of_lt hlt, hunset]
    simpa [hpressed] using keySkips_pc (named hlt)
  case fault => exact exec_keySkips_error (by simp [keyIndex, hp, Nat.not_lt.mpr hge])
  case lowNibble =>
    have hkey : keyIndex s.params.keyPolicy (s.getV x) = .ok (some ((s.getV x).setWidth 4)) := by simp [keyIndex, hp]
    obtain ⟨⟨t, ht, hpc, hframe⟩, ⟨t', ht', hpc', hframe'⟩⟩ := keySkips_pc hkey
    rw [State.pressed_lowNibble] at hpc hpc'
    exact ⟨⟨t, ht, hframe, hpc⟩, ⟨t', ht', hframe', hpc'⟩⟩
  case notPressed =>
    have hkey : keyIndex s.params.keyPolicy (s.getV x) = .ok none := by simp [keyIndex, hp, Nat.not_lt.mpr hge]
    exact keySkips_pc hkey

/-! ### WaitForKey and the key signals -/

/-- Settles O29: the wait state is the only write, followed by `outcome Next`. -/
theorem waitForKeyEntersTheWait : Obligations.WaitForKeyEntersTheWait := by
  unfold Obligations.WaitForKeyEntersTheWait
  exact fun x s => ⟨_, rfl, rfl, Flow.apply_next s.pc, (s.frame_replaceWait _).finish .next⟩

/-- The one bit of a key in the mask (R131). -/
theorem keyBit_getLsbD (k j : Key) : (1#16 <<< k.toNat).getLsbD j.toNat = decide (j = k) := by
  have hk : k.toNat < 16 := k.isLt
  have hbit : (1#16 <<< k.toNat).getLsbD j.toNat = (decide (k.toNat < 16) && decide (k.toNat = j.toNat)) :=
    BitVec.getLsbD_twoPow _ _
  simp [hbit, hk, BitVec.toNat_inj, eq_comm]

/-- Settles O30, from what a key-down leaves in each piece of state. -/
theorem keyDownSetsKeyAndEndsWait : Obligations.KeyDownSetsKeyAndEndsWait := by
  unfold Obligations.KeyDownSetsKeyAndEndsWait
  intro k rest s hs
  have hstep : step s = .next (s.keyDown k).dropEvent := by simp only [step, nextEvent, hs]
  have hregs (x : Reg) : (s.keyDown k).dropEvent.getV x = if s.wait = .awaitingKey x then k.setWidth 8 else s.getV x :=
    s.getV_keyDown k x
  refine ⟨_, hstep, fun j => ?keys, s.keyDown_wait k, fun r hwait => ⟨?code, fun y hy => ?others⟩, fun hrun y _ => ?running,
    ?kept, ?schedule, s.keyDown_stepCount k⟩
  case keys => rw [State.dropEvent_keys, State.keyDown_keys, BitVec.getLsbD_or, keyBit_getLsbD, Bool.or_comm]
  case code => rw [hregs, if_pos hwait, BitVec.toNat_setWidth_of_le (by decide)]
  case others =>
    have hne : s.wait ≠ .awaitingKey y := by rw [hwait]; rintro ⟨⟩; simp at hy
    rw [hregs, if_neg hne]
  case running => rw [hregs, if_neg (by simp [hrun])]
  case kept => simp [Unchanged, State.readByte]
  case schedule => simp [hs]

/-- Settles O31, from what a key-up leaves in each piece of state. -/
theorem keyUpOnlyClearsKey : Obligations.KeyUpOnlyClearsKey := by
  unfold Obligations.KeyUpOnlyClearsKey
  intro k rest s hs
  have hstep : step s = .next (s.keyUp k).dropEvent := by simp only [step, nextEvent, hs]
  refine ⟨_, hstep, fun j => ?keys, ?kept, ?schedule, rfl⟩
  case keys =>
    have hj : j.toNat < 16 := j.isLt
    rw [State.dropEvent_keys, State.keyUp_keys, BitVec.getLsbD_and, BitVec.getLsbD_not, keyBit_getLsbD]
    simp [hj, Bool.and_comm]
  case kept => simp [Unchanged, State.getV, State.readByte]
  case schedule => simp [hs]

/-- Settles O32, event by event: a waiting step, a tick, a key-up and a load that fails leave the wait as it is. -/
theorem onlyKeyDownOrResetEndsAWait : Obligations.OnlyKeyDownOrResetEndsAWait := by
  unfold Obligations.OnlyKeyDownOrResetEndsAWait
  intro s t r hwait h
  obtain ⟨u, -, hstep, rfl⟩ | ⟨_, -, rfl⟩ | ⟨k, rest, hs, rfl⟩ | ⟨k, _, -, rfl⟩ | ⟨image, rest, hs, hlen, rfl⟩ |
    ⟨image, _, -, -, rfl⟩ | ⟨rest, hs, rfl⟩ := nextEvent_cases h
  case inl =>
    cases (engineStep_waiting hwait).symm.trans hstep
    exact .inl ⟨hwait, rfl, rfl⟩
  · exact .inl ⟨hwait, rfl, rfl⟩
  · refine .inr (.inl ⟨s.keyDown_wait k, k, rest, hs, ?_⟩)
    have hcode := s.getV_keyDown k r
    rw [if_pos hwait] at hcode
    exact (congrArg BitVec.toNat hcode).trans (BitVec.toNat_setWidth_of_le (by decide))
  · exact .inl ⟨hwait, rfl, rfl⟩
  · exact .inr (.inr (.inl ⟨by simp [State.reset], image, rest, hs, hlen⟩))
  · exact .inl ⟨hwait, rfl, rfl⟩
  · exact .inr (.inr (.inr ⟨rfl, rest, hs⟩))

end Sys2Proof.Machine
end

section
/-! The tick and the index instructions (spec/60_exceptions.md rules R735, R736; spec/47_memory_indirect.md rules R560 to R564). -/

namespace Sys2Proof.Machine

/-- Settles O34: the tick counts both timers down and is then off the schedule. -/
theorem tickCountsBothTimersDown : Obligations.TickCountsBothTimersDown := by
  unfold Obligations.TickCountsBothTimersDown
  intro rest s hs
  have hstep : step s = .next s.tick.dropEvent := by simp only [step, nextEvent, hs]
  refine ⟨_, hstep, countDown_toNat s.dt, countDown_toNat s.st, ?kept, ?schedule, rfl⟩
  case kept => simp [Unchanged, State.getV, State.readByte]
  case schedule => simp [hs]

theorem indexFlag_toNat (limit : Word) (sum : Nat) : (indexFlag limit sum).toNat = if sum > limit.toNat then 1 else 0 := by
  simp [indexFlag, flagOf_toNat]

/-- Five times a byte does not reach 0x10000. -/
theorem fontAddress_toNat (v : Byte) : (zext16 v * 5#16).toNat = v.toNat * 5 := by
  have := v.isLt
  rw [BitVec.toNat_mul, BitVec.toNat_setWidth]
  simp
  omega

/-- The index that AddToIndex leaves, and the flag it writes under `INDEX_VF = On` (R562). -/
theorem effect_addToIndex_i (x : Reg) (s : State) :
    (effect (.addToIndex x) s).i = BitVec.ofNat 16 (s.i.toNat + (s.getV x).toNat) := by
  unfold effect
  dsimp only
  split_ifs <;> rfl

theorem effect_addToIndex_flag {x : Reg} {s : State} (h : s.params.indexVf = .on) :
    (effect (.addToIndex x) s).getV VF = indexFlag s.params.indexVfLimit (s.i.toNat + (s.getV x).toNat) := by
  simp [effect, h]

/-- Settles O35: Annn and Fx29 are one write of `I`, and Fx1E one of `I` and, under `INDEX_VF = On`, one of `V[15]`. -/
theorem indexInstructionsSetI : Obligations.IndexInstructionsSetI := by
  unfold Obligations.IndexInstructionsSetI
  intro nnn x s
  have hregs := regsKept_effect (.addToIndex x) s
  refine ⟨⟨_, rfl, zext16_addr_toNat nnn, Flow.apply_next s.pc, frame_effect (.loadIndex nnn) s .next⟩,
    ⟨_, rfl, fontAddress_toNat (s.getV x), Flow.apply_next s.pc, frame_effect (.loadFontAddress x) s .next⟩,
    _, exec_addToIndex x s, ?sum, fun hoff => ?off, fun hon => ⟨?kept, ?flag⟩, ?pc, frame_effect (.addToIndex x) s .next⟩
  case sum => rw [State.finish_i, effect_addToIndex_i, BitVec.toNat_ofNat]
  case off => simpa [destRegs, hoff] using hregs.finish .next
  case kept => simpa [destRegs, hon] using hregs.finish .next
  case flag => rw [State.getV_finish, effect_addToIndex_flag hon, indexFlag_toNat]
  case pc => exact effect_finish_next_pc _ s

end Sys2Proof.Machine
end

section
/-! Memory at `I`: StoreBcd, StoreRegisters, LoadRegisters, and the fetch of stored bytes (spec/47_memory_indirect.md rules R566 to
R570, spec/20_memory.md rule R221). -/

namespace Sys2Proof.Machine

/-- The three digits of a byte, each below ten, make up its value (R566). -/
theorem bcdDigits_spec (v : Byte) :
    ∃ h d o : Byte, bcdDigits v = [h, d, o] ∧ h.toNat ≤ 2 ∧ d.toNat ≤ 9 ∧ o.toNat ≤ 9 ∧
      100 * h.toNat + 10 * d.toNat + o.toNat = v.toNat := by
  have := v.isLt
  refine ⟨_, _, _, rfl, ?_⟩
  simp only [BitVec.toNat_ofNat]
  omega

/-- Settles O36: the three cells stored are the digits, at the addresses that the address check answers. -/
theorem storeBcdStoresThreeDigits : Obligations.StoreBcdStoresThreeDigits := by
  unfold Obligations.StoreBcdStoresThreeDigits
  intro x s hwf haccess
  obtain ⟨h, d, o, hdigits, hh, hd, ho, hsum⟩ := bcdDigits_spec (s.getV x)
  have heffect : effect (.storeBcd x) s = s.writeBytes (storedCells s.i.toNat [h, d, o]) := by rw [effect, hdigits]
  have stored (k : Nat) (hk : k < [h, d, o].length) :
      ((effect (.storeBcd x) s).finish .next).readByte ((s.i.toNat + k) % 0x1000) = [h, d, o][k] := by
    rw [State.readByte_finish, heffect]
    exact State.readByte_stored hwf s.i.toNat [h, d, o] (by simp) k hk
  have hreadH := congrArg BitVec.toNat (stored 0 (by simp))
  have hreadD := congrArg BitVec.toNat (stored 1 (by simp))
  have hreadO := congrArg BitVec.toNat (stored 2 (by simp))
  refine ⟨_, _, _, _, exec_storeBcd_ok x haccess, resolveAddr_ok haccess (k := 0) (by decide),
    resolveAddr_ok haccess (k := 1) (by decide), resolveAddr_ok haccess (k := 2) (by decide), hreadH.trans_le hh,
    hreadD.trans_le hd, hreadO.trans_le ho, ?value, fun a hah had hao => ?other, ?pc, frame_effect (.storeBcd x) s .next⟩
  case value => rw [hreadH, hreadD, hreadO]; exact hsum
  case other =>
    rw [State.readByte_finish, heffect]
    refine State.readByte_not_stored hwf s.i.toNat [h, d, o] a fun k hk => ?_
    have hk : k < 3 := hk
    interval_cases k
    · exact hah
    · exact had
    · exact hao
  case pc => exact effect_finish_next_pc _ s

/-- What StoreRegisters leaves in memory, at an address that the check answers (R568). -/
theorem readByte_storeRegisters {x : Reg} {s : State} (hwf : s.memWf = true) {k : Nat} (hk : k ≤ x.toNat) :
    (effect (.storeRegisters x) s).readByte ((s.i.toNat + k) % 0x1000) = s.getV (BitVec.ofNat 4 k) := by
  have hx := x.isLt
  have hlen := s.getVs_length x
  have hk' : k < (s.getVs x).length := by omega
  rw [← s.getVs_getElem x k hk']
  exact State.readByte_stored hwf s.i.toNat (s.getVs x) (by omega) k hk'

/-- Settles O37: the cells stored are the registers, at the addresses that the address check answers. -/
theorem storeRegistersStoresV0ToVx : Obligations.StoreRegistersStoresV0ToVx := by
  unfold Obligations.StoreRegistersStoresV0ToVx
  intro x s hwf haccess
  refine ⟨_, exec_storeRegisters_ok haccess, fun k hk a ha => ?stored, fun a ha => ?other, ?pc,
    frame_effect (.storeRegisters x) s .next⟩
  case stored =>
    obtain ⟨-, rfl⟩ := resolveAddr_lt ha
    exact readByte_storeRegisters hwf hk
  case other =>
    refine State.readByte_not_stored hwf s.i.toNat (s.getVs x) a fun k hk hak => ?_
    rw [State.getVs_length] at hk
    exact ha k (Nat.lt_succ_iff.mp hk) (hak ▸ resolveAddr_ok haccess hk)
  case pc => exact effect_finish_next_pc _ s

/-- What LoadRegisters leaves in a register: up to `V[x]` a byte of memory, above it what was there (R570). -/
theorem getV_loadRegisters (x k : Reg) (s : State) :
    (effect (.loadRegisters x) s).getV k =
      if k.toNat ≤ x.toNat then s.readByte ((s.i.toNat + k.toNat) % 0x1000) else s.getV k := by
  have hlt : k.toNat < x.toNat + 1 ↔ k.toNat ≤ x.toNat := Nat.lt_succ_iff
  simp [effect, State.getV_setVs, hlt]

/-- Settles O38: the bytes loaded are those at the addresses that the address check answers. -/
theorem loadRegistersLoadsV0ToVx : Obligations.LoadRegistersLoadsV0ToVx := by
  unfold Obligations.LoadRegistersLoadsV0ToVx
  intro x s haccess
  refine ⟨_, exec_loadRegisters_ok haccess, fun k hk a ha => ?loaded, fun k hk => ?above, ?pc,
    frame_effect (.loadRegisters x) s .next⟩
  case loaded =>
    obtain ⟨-, rfl⟩ := resolveAddr_lt ha
    rw [State.getV_finish, getV_loadRegisters, if_pos hk]
  case above => rw [State.getV_finish, getV_loadRegisters, if_neg (Nat.not_le.mpr hk)]
  case pc => exact effect_finish_next_pc _ s

/-- A StoreRegisters that completes leaves its effect and moves `pc` past itself. -/
theorem eq_effect_of_exec_storeRegisters {x : Reg} {s t : State} (h : exec (.storeRegisters x) s = .next t) :
    t = (effect (.storeRegisters x) s).finish .next := by
  obtain ⟨o, ⟨rfl⟩, ht⟩ := eq_effect_of_exec h
  exact ht

/-- Settles O39: the load reads at the addresses the store wrote, `I` and the parameters being the same. -/
theorem loadRegistersUndoesStoreRegisters : Obligations.LoadRegistersUndoesStoreRegisters := by
  unfold Obligations.LoadRegistersUndoesStoreRegisters
  intro x s t u hwf hstore hmem hi hparams
  have haccess := accessible_of_exec hstore
  obtain rfl := eq_effect_of_exec_storeRegisters hstore
  obtain ⟨⟨-, hsameI, -, -, -, -, -, -, -, -, -, hsameParams⟩, -⟩ := frame_effect (.storeRegisters x) s .next
  have hI : u.i = s.i := hi.trans (hsameI (by simp [writes]))
  have haccess' : Accessible u u.i.toNat (x.toNat + 1) := by
    unfold Accessible
    rw [hI, hparams, hsameParams]
    exact haccess
  refine ⟨_, exec_loadRegisters_ok haccess', fun k hk => ?_⟩
  rw [State.getV_finish, getV_loadRegisters, if_pos hk, hI, State.readByte_congr hmem hparams, State.readByte_finish,
    readByte_storeRegisters hwf hk, BitVec.ofNat_toNat, BitVec.setWidth_eq]

/-- With `pc` moved inside the address space, fetch reads the two bytes at the new `pc` (R212). -/
theorem State.fetch_replacePc {s : State} {pc : Word} {a : Nat} (hpc : pc.toNat = a) (ha : a + 1 < 0x1000) :
    ({ s with pc := pc } : State).fetch = .ok (s.readByte (a % 0x1000), s.readByte ((a + 1) % 0x1000)) := by
  subst hpc
  exact State.fetch_ok (s := { s with pc := pc }) (.inr ha)

/-- Settles O40: a fetch reads the two bytes from the memory that the store left. -/
theorem storedBytesAreFetched : Obligations.StoredBytesAreFetched := by
  unfold Obligations.StoredBytesAreFetched
  intro x s t k hwf hstore hk hlast
  obtain rfl := eq_effect_of_exec_storeRegisters hstore
  have hpc : (BitVec.ofNat 16 (s.i.toNat + k)).toNat = s.i.toNat + k := by
    rw [BitVec.toNat_ofNat]
    omega
  have hhi := readByte_storeRegisters (x := x) hwf (Nat.le_of_succ_le hk)
  have hlo := readByte_storeRegisters (x := x) hwf hk
  rw [← hhi, ← hlo, ← Nat.add_assoc]
  exact State.fetch_replacePc hpc hlast

end Sys2Proof.Machine
end

section
/-! Reset, power-on and load (spec/70_reset_and_hazards.md rules R800, R810, R811; spec/10_state.md rule R170). -/

namespace Sys2Proof.Machine

/-! ### The memory after a load -/

theorem readByte_powerOn (s : State) (a : Nat) : s.powerOn.readByte a = resetByte s.params.font a := rfl

theorem mem_imageCells {image : List Byte} {k : Nat} (hk : k < image.length) : (0x200 + k, image[k]) ∈ imageCells image := by
  have hcell : (imageCells image)[k]? = some (0x200 + k, image[k]) := by
    simp [imageCells, hk]
  exact List.mem_of_getElem? hcell

theorem of_mem_imageCells {image : List Byte} {c : Nat × Byte} (hc : c ∈ imageCells image) :
    0x200 ≤ c.1 ∧ c.1 < 0x200 + image.length := by
  have hmem := (List.of_mem_zip (a := c.1) (b := c.2) hc).1
  rwa [List.mem_range'_1] at hmem

theorem nodup_imageCells (image : List Byte) : ((imageCells image).map Prod.fst).Nodup := by
  rw [imageCells, List.map_fst_zip (by simp)]
  exact List.nodup_range'

/-- Below 0x200 a load leaves what power-on leaves. -/
theorem readByte_load_below {image : List Byte} (hlen : image.length ≤ 3584) (s : State) {a : Nat} (ha : a < 0x200) :
    (s.powerOn.writeBytes (imageCells image)).readByte a = resetByte s.params.font a :=
  State.readByte_writeBytes_other (memWf_powerOn s) (imageCells_lt hlen) fun c hc => by
    have := of_mem_imageCells hc
    omega

/-- From 0x200 on a load leaves the image and zeros after it. -/
theorem readByte_load_image {image : List Byte} (hlen : image.length ≤ 3584) (s : State) {a : Nat} (ha : 0x200 ≤ a) :
    (s.powerOn.writeBytes (imageCells image)).readByte a = image.getD (a - 0x200) 0 := by
  obtain ⟨k, rfl⟩ := Nat.exists_eq_add_of_le ha
  rw [Nat.add_sub_cancel_left]
  by_cases hk : k < image.length
  · rw [List.getD_eq_getElem _ _ hk]
    exact State.readByte_writeBytes_same (memWf_powerOn s) (imageCells_lt hlen) (nodup_imageCells image) (mem_imageCells hk)
  · rw [List.getD_eq_default _ _ (Nat.not_lt.mp hk)]
    refine (State.readByte_writeBytes_other (memWf_powerOn s) (imageCells_lt hlen) fun c hc => ?_).trans ?_
    · have := of_mem_imageCells hc
      omega
    · rw [readByte_powerOn, resetByte, dif_neg (by omega)]; rfl

/-- The state a load makes is that of R170, whatever the state before. -/
theorem afterReset_load {image : List Byte} (hlen : image.length ≤ 3584) (s : State) :
    AfterReset image (s.powerOn.writeBytes (imageCells image)) := by
  unfold AfterReset
  simp only [State.writeBytes_i, State.writeBytes_pc, State.writeBytes_sp, State.writeBytes_stack, State.writeBytes_dt,
    State.writeBytes_st, State.writeBytes_fb, State.writeBytes_keys, State.writeBytes_wait, State.writeBytes_params]
  refine ⟨fun x => ?registers, rfl, rfl, rfl, fun j hj => ?slots, rfl, rfl, Framebuffer.pixel_clear, rfl, rfl,
    fun a ha => ?font, fun a hfont ha => ?zeros, fun a ha => readByte_load_image hlen s ha⟩
  case registers => simp [State.getV, State.reset]
  case slots => simp [State.reset]
  case font => rw [readByte_load_below hlen s (by omega), resetByte, dif_pos ha]; rfl
  case zeros => rw [readByte_load_below hlen s ha, resetByte, dif_neg (by omega)]; rfl

/-- A power-on is the load of an empty image. -/
theorem afterReset_powerOn (s : State) : AfterReset [] s.powerOn := afterReset_load (image := []) (by decide) s

/-- Settles O45: the reset state is that after a power-on, with the default parameters. -/
theorem resetStateIsPowerOnState : Obligations.ResetStateIsPowerOnState := by
  unfold Obligations.ResetStateIsPowerOnState
  refine ⟨afterReset_powerOn State.reset, rfl, fun s rest hs => ?powerOn⟩
  case powerOn =>
    have hstep : step s = .next s.powerOn.dropEvent := by simp only [step, nextEvent, hs]
    exact ⟨_, hstep, afterReset_powerOn s, rfl, memWf_powerOn s⟩

/-- Settles O46: the event leaves the state a load makes, and is off the schedule. -/
theorem loadReinitialisesEverything : Obligations.LoadReinitialisesEverything := by
  unfold Obligations.LoadReinitialisesEverything
  intro image rest s hs hlen
  obtain ⟨-, -, hload⟩ | ⟨hlarge, -, -⟩ := s.deliverLoad_cases image
  · have hstep : step s = .next (s.powerOn.writeBytes (imageCells image)).dropEvent := by
      simp only [step, nextEvent, hs, hload]
    refine ⟨_, hstep, afterReset_load hlen s, ?params, State.memWf_writeBytes (memWf_powerOn s) (imageCells_lt hlen), ?schedule⟩
    case params => simp
    case schedule => simp [hs]
  · omega

/-- Settles O47: the load fails, so the scheduled event leaves the state but for the schedule, and the driver is told the error. -/
theorem oversizedLoadFails : Obligations.OversizedLoadFails := by
  unfold Obligations.OversizedLoadFails
  intro image rest s hlarge
  obtain ⟨hlen, -, -⟩ | ⟨-, herror, hkept⟩ := s.deliverLoad_cases image
  · omega
  · refine ⟨fun hs => ?scheduled, ?answered⟩
    case scheduled => simp only [step, nextEvent, hs, hkept, State.dropEvent, List.tail_cons]
    case answered => simp only [respond, Event.loadError, herror]

end Sys2Proof.Machine
end

section
/-! The block as its driver sees it (spec/10_state.md rules R150, R151): what an event answers, what follows an error, and a run over a
schedule as the events given one by one (spec/60_exceptions.md rules R712, R713). -/

namespace Sys2Proof.Machine

/-! ### The answer to one event -/

/-- Only a load of more than 3584 bytes reports a load error (R811). -/
theorem large_of_loadError {e : Event} {s : State} {err : LoadError} (h : e.loadError s = some err) :
    ∃ image, e = .load image ∧ 3584 < image.length := by
  cases e with
  | load image =>
    obtain ⟨-, hload, -⟩ | ⟨hlarge, -, -⟩ := s.deliverLoad_cases image
    · simp [Event.loadError, hload] at h
    · exact ⟨image, rfl, hlarge⟩
  | step | tick | keyDown | keyUp | powerOn => nomatch h

/-- An event that is no failing load answers `Ok` where the machine's step answers a next state. -/
theorem respond_ok {e : Event} {s t : State} (hload : e.loadError s = none)
    (hstep : step { s with schedule := [e] } = .next t) : respond e s = (.ok (e.reported s), t) := by
  simp only [respond, hload, hstep]

/-- Everything the driver can be answered: a load's error, the step's next state, or the step's error; after an error the state is the
one before. -/
theorem respond_cases (e : Event) (s : State) :
    (∃ err, e.loadError s = some err ∧ respond e s = (.loadErr err, s)) ∨
    (∃ t, step { s with schedule := [e] } = .next t ∧ respond e s = (.ok (e.reported s), t)) ∨
    (∃ f, respond e s = (.err f, s)) ∨ ∃ r, respond e s = (.unmodelled r, s) := by
  cases hload : e.loadError s with
  | some err => exact .inl ⟨err, rfl, by simp only [respond, hload]⟩
  | none =>
    cases hstep : step { s with schedule := [e] } with
    | next t => exact .inr (.inl ⟨t, rfl, respond_ok hload hstep⟩)
    | fault f => exact .inr (.inr (.inl ⟨f, by simp only [respond, hload, hstep]⟩))
    | refused r => exact .inr (.inr (.inr ⟨r, by simp only [respond, hload, hstep]⟩))

/-- An event that fails leaves the state as it was (R712, R811). -/
theorem respond_failed {e : Event} {s t : State} {r : Response} (h : respond e s = (r, t)) (hfailed : r.failed = true) :
    t = s := by
  obtain ⟨_, -, hr⟩ | ⟨_, -, hr⟩ | ⟨_, hr⟩ | ⟨_, hr⟩ := respond_cases e s <;> cases hr.symm.trans h
  · rfl
  · nomatch hfailed
  · rfl
  · rfl

/-- A load of a program that fits answers `Ok` and makes the core run (R810). -/
theorem respond_load {image : List Byte} (hlen : image.length ≤ 3584) (s : State) :
    (respond (.load image) s).1 = .ok none ∧ (respond (.load image) s).2.wait = .running := by
  have hload : (Event.load image).loadError s = none := by
    cases herr : (Event.load image).loadError s with
    | none => rfl
    | some err =>
      obtain ⟨_, ⟨rfl⟩, hlarge⟩ := large_of_loadError herr
      omega
  obtain ⟨t, hstep, ⟨-, -, -, -, -, -, -, -, -, hrunning, -⟩, -⟩ :=
    loadReinitialisesEverything image [] { s with schedule := [.load image] } rfl hlen
  rw [respond_ok hload hstep]
  exact ⟨rfl, hrunning⟩

/-- Settles O44: a failed event leaves the state as it was, from which a tick, a key signal and a load succeed as from any. -/
theorem errorLeavesStateAndDriverGoesOn : Obligations.ErrorLeavesStateAndDriverGoesOn := by
  unfold Obligations.ErrorLeavesStateAndDriverGoesOn
  intro e s t r h hfailed
  obtain rfl := respond_failed h hfailed
  exact ⟨rfl, h, rfl, fun k => ⟨rfl, rfl⟩, fun image hlen => respond_load hlen t⟩

/-! ### A run over a schedule -/

/-- With the same random byte the engine's step answers the same whatever the driver's fields, which it leaves as they are. -/
theorem engineStep_withDriver (s : State) (es : List Event) (n : Nat) (h : (s.withDriver es n).randomByte = s.randomByte) :
    engineStep (s.withDriver es n) = mapNext (fun t => t.withDriver es n) (engineStep s) := by
  have hwait : (s.withDriver es n).wait = s.wait := rfl
  have hfetch : (s.withDriver es n).fetch = s.fetch := rfl
  unfold engineStep
  rw [hwait, hfetch]
  cases s.wait with
  | awaitingKey r => rfl
  | running =>
    cases s.fetch with
    | error f => rfl
    | ok bytes =>
      dsimp only
      cases decode bytes.1 bytes.2 with
      | invalid op => rfl
      | instr i => exact exec_withDriver i s es n (.inr h)

/-- No instruction writes the driver's fields, and a waiting step writes nothing. -/
theorem engineStep_sameDriver {s t : State} (h : engineStep s = .next t) : SameDriver s t := by
  obtain ⟨_, -, rfl⟩ | ⟨_, _, i, -, -, -, hexec⟩ := engineStep_cases h
  · exact ⟨rfl, rfl⟩
  · obtain ⟨⟨-, hdriver⟩, -⟩ := everyInstructionKeepsItsFrame i s t hexec
    exact hdriver

/-- The state with another schedule. -/
def State.withSchedule (s : State) (es : List Event) : State := s.withDriver es s.stepCount

theorem State.withSchedule_keyDown (s : State) (k : Key) (es : List Event) :
    (s.withSchedule es).keyDown k = (s.keyDown k).withSchedule es := by
  have hwait : (s.withSchedule es).wait = s.wait := rfl
  unfold State.keyDown State.resolveWait
  dsimp only
  rw [hwait]
  cases s.wait <;> rfl

theorem State.withSchedule_deliverLoad (s : State) (image : List Byte) (es : List Event) :
    (s.withSchedule es).deliverLoad image = (s.deliverLoad image).withSchedule es := by
  unfold State.deliverLoad State.load
  split_ifs
  · rfl
  · have hwrite := s.powerOn.withDriver_writeBytes (imageCells image) es s.stepCount
    dsimp only
    rw [State.withSchedule, State.withSchedule, State.writeBytes_stepCount]
    exact hwrite

/-- The events after the next one only stay on the schedule: the machine takes the next one as if it were the last. -/
theorem step_withSchedule_cons (e : Event) (es : List Event) (s : State) :
    step (s.withSchedule (e :: es)) = mapNext (fun t => t.withSchedule es) (step (s.withSchedule [e])) := by
  cases e with
  | step r =>
    have hengine := engineStep_withDriver (s.withSchedule [.step r]) (.step r :: es) s.stepCount rfl
    rw [step_of_stepIsNext (.inr ⟨r, es, rfl⟩), step_of_stepIsNext (.inr ⟨r, [], rfl⟩)]
    refine (congrArg (mapNext State.retireStep) hengine).trans ?_
    cases hu : engineStep (s.withSchedule [.step r]) with
    | next u =>
      obtain ⟨-, hcount⟩ := engineStep_sameDriver hu
      have hcount : u.stepCount = s.stepCount := hcount
      rw [← hcount]
      rfl
    | fault f => rfl
    | refused r => rfl
  | tick => rfl
  | keyDown k =>
    change Host.Outcome.next ((s.withSchedule (.keyDown k :: es)).keyDown k).dropEvent =
      .next (((s.withSchedule [.keyDown k]).keyDown k).dropEvent.withSchedule es)
    rw [State.withSchedule_keyDown, State.withSchedule_keyDown]
    rfl
  | keyUp k => rfl
  | load image =>
    change Host.Outcome.next ((s.withSchedule (.load image :: es)).deliverLoad image).dropEvent =
      .next (((s.withSchedule [.load image]).deliverLoad image).dropEvent.withSchedule es)
    rw [State.withSchedule_deliverLoad, State.withSchedule_deliverLoad]
    rfl
  | powerOn => rfl

/-- Every event takes itself off the schedule, and nothing else. -/
theorem step_schedule {s t : State} (h : step s = .next t) : t.schedule = s.schedule.tail := by
  obtain ⟨u, -, hstep, rfl⟩ | ⟨_, -, rfl⟩ | ⟨k, _, -, rfl⟩ | ⟨k, _, -, rfl⟩ | ⟨image, _, -, -, rfl⟩ | ⟨image, _, -, -, rfl⟩ |
    ⟨_, -, rfl⟩ := nextEvent_cases h
  · obtain ⟨hschedule, -⟩ := engineStep_sameDriver hstep
    rw [State.retireStep_schedule, hschedule]
  all_goals simp

/-- A run of one step more goes on from the next state. -/
theorem run_succ {M : Host.Core} {k : Nat} {s t : M.State} (h : M.step s = .next t) : M.run (k + 1) s = M.run k t := by
  rw [Host.Core.run, h]

/-- A schedule put on and taken off again leaves a state with an empty schedule as it was. -/
theorem State.withSchedule_nil {s : State} (h : s.schedule = []) (es : List Event) :
    ({ s.withSchedule es with schedule := [] } : State) = s := by
  rw [← h]
  rfl

/-- Settles O53, by induction on the schedule: the machine takes the head event as the driver gives it alone, the rest staying on the
schedule. -/
theorem scheduledRunIsTheDriversRun : Obligations.ScheduledRunIsTheDriversRun := by
  unfold Obligations.ScheduledRunIsTheDriversRun
  intro es
  induction es with
  | nil =>
    intro s hs _
    have hsame : s.withSchedule [] = s := by rw [← hs]; rfl
    exact congrArg Host.Outcome.next hsame.symm
  | cons e es ih =>
    intro s hs hanswers
    change ∀ r ∈ (drive (e :: es) (s.withSchedule [])).1, _ at hanswers
    change Host.Core.run Sys2Proof.core (es.length + 1) s = .next (drive (e :: es) (s.withSchedule [])).2
    simp only [drive, List.mem_cons, forall_eq_or_imp] at hanswers ⊢
    obtain ⟨hhead, hrest⟩ := hanswers
    obtain ⟨err, herr, hr⟩ | ⟨t, hstep, hr⟩ | ⟨f, hr⟩ | ⟨r, hr⟩ := respond_cases e (s.withSchedule []) <;>
      rw [hr] at hhead hrest ⊢
    case inl =>
      obtain ⟨image, rfl, hlarge⟩ := large_of_loadError herr
      obtain ⟨hscheduled, -⟩ := oversizedLoadFails image es s hlarge
      exact (run_succ (M := Sys2Proof.core) (hscheduled hs)).trans (ih _ rfl hrest)
    case inr.inl =>
      have hempty : t.schedule = [] := step_schedule hstep
      have hstep' : step s = .next (t.withSchedule es) :=
        calc step s = step (s.withSchedule (e :: es)) := by rw [← hs]; rfl
          _ = mapNext (fun t => t.withSchedule es) (step (s.withSchedule [e])) := step_withSchedule_cons e es s
          _ = .next (t.withSchedule es) := congrArg (mapNext fun t => t.withSchedule es) hstep
      have hrun := ih (t.withSchedule es) rfl
      rw [State.withSchedule_nil hempty] at hrun
      exact (run_succ (M := Sys2Proof.core) hstep').trans (hrun hrest)
    case inr.inr.inl => obtain ⟨_, h⟩ | ⟨_, h⟩ := hhead <;> nomatch h
    case inr.inr.inr => obtain ⟨_, h⟩ | ⟨_, h⟩ := hhead <;> nomatch h

end Sys2Proof.Machine
end
